-- ==== Sys2Proof/Word.lean ====
section
/-! DEFINITION. The words of the machine and the sizes the spec fixes (00_scope.md rules R10, R12, R13). -/

namespace Sys2Proof

/-- A register value, a segment word, a segment id, an offset held in a register (R10: WORD = 32 bits). -/
abbrev Word := BitVec 32

/-- The I/O unit: one byte, 0 to 255 (R10). -/
abbrev Byte := BitVec 8

/-- A register number: NREG = 8 (R10). A number outside 0 to 7 cannot be formed (10_state.md rule R25). -/
abbrev Reg := Fin 8

/-- The end-of-input value 2^32 - 1 (R10). -/
abbrev endOfInputWord : Word := BitVec.allOnes 32

/-- `zext_32` of a byte (R13). -/
abbrev zextByte (b : Byte) : Word := b.setWidth 32

/-- `zext_32` of LOADV's immediate, 25 bits wide and unsigned (R10, R13, 30_encoding.md rule R110). -/
abbrev zextImm (v : BitVec 25) : Word := v.setWidth 32

/-- The low byte of a word, `v[7:0]` (R12, 45_io.md rule R190). -/
abbrev lowByte (v : Word) : Byte := v.extractLsb' 0 8

/-- Every length of a segment is at most this (10_state.md rule R43). -/
abbrev maxSegLen : Nat := 2 ^ 32 - 1

end Sys2Proof
end

