-- ==== Sys2Proof/Syntax.lean ====
section
/-! DEFINITION. The instructions: one constructor for each row of spec/opcode_table.json (30_encoding.md
rules R103 to R108). Bits and fields an instruction does not use are not part of it (rule R109). -/

namespace Sys2Proof

/-- The decoded instruction. Fields stand in the order `a`, `b`, `c` of 30_encoding.md rule R101, those the
instruction does not use left out (rule R106, column "uses"). The immediate of `loadv` is a natural number that
`Instr.wf` holds to 25 bits (rule R132: a wider one cannot be encoded). -/
inductive Instr where
  /-- opcode 0, R140 -/
  | cmov (a b c : Reg)
  /-- opcode 1, R145 -/
  | sload (a b c : Reg)
  /-- opcode 2, R150 -/
  | sstore (a b c : Reg)
  /-- opcode 3, R155 -/
  | add (a b c : Reg)
  /-- opcode 4, R158 -/
  | mul (a b c : Reg)
  /-- opcode 5, R161 -/
  | div (a b c : Reg)
  /-- opcode 6, R165 -/
  | nand (a b c : Reg)
  /-- opcode 7, R170 -/
  | halt
  /-- opcode 8, R175 -/
  | map (b c : Reg)
  /-- opcode 9, R181 -/
  | unmap (c : Reg)
  /-- opcode 10, R190 -/
  | output (c : Reg)
  /-- opcode 11, R194 -/
  | input (c : Reg)
  /-- opcode 12, R200 -/
  | loadp (b c : Reg)
  /-- opcode 13, R210 -/
  | loadv (a : Reg) (imm : Nat)
  /-- opcode 14, not an instruction but the illegal-opcode fault, R108 -/
  | illegal14
  /-- opcode 15, not an instruction but the illegal-opcode fault, R108 -/
  | illegal15
  deriving DecidableEq, Repr

/-- The row's name in spec/opcode_table.json (00_scope.md rule R18). -/
def Instr.mnemonic : Instr → String
  | .cmov _ _ _ => "CMOV"
  | .sload _ _ _ => "SLOAD"
  | .sstore _ _ _ => "SSTORE"
  | .add _ _ _ => "ADD"
  | .mul _ _ _ => "MUL"
  | .div _ _ _ => "DIV"
  | .nand _ _ _ => "NAND"
  | .halt => "HALT"
  | .map _ _ => "MAP"
  | .unmap _ => "UNMAP"
  | .output _ => "OUTPUT"
  | .input _ => "INPUT"
  | .loadp _ _ => "LOADP"
  | .loadv _ _ => "LOADV"
  | .illegal14 => "ILLEGAL_14"
  | .illegal15 => "ILLEGAL_15"

end Sys2Proof
end

