-- ==== Sys2Proof/WellFormed.lean ====
section
/-! DEFINITION. Which instruction terms stand for an encodable instruction (30_encoding.md rules R110 and R132, 10_state.md rule R25).
A register number is in range by its type; the immediate is the one field with a check. -/

namespace Sys2Proof

/-- An immediate fits its 25-bit field (30_encoding.md rules R110 and R132). -/
def immFits (imm : Nat) : Bool := decide (imm < 2 ^ 25)

/-- The instruction can be encoded: "An immediate that does not fit in 25 bits cannot be encoded" (R132). -/
def Instr.wf : Instr → Bool
  | .cmov _ _ _ => true
  | .sload _ _ _ => true
  | .sstore _ _ _ => true
  | .add _ _ _ => true
  | .mul _ _ _ => true
  | .div _ _ _ => true
  | .nand _ _ _ => true
  | .halt => true
  | .map _ _ => true
  | .unmap _ => true
  | .output _ => true
  | .input _ => true
  | .loadp _ _ => true
  | .loadv _ imm => immFits imm
  | .illegal14 => true
  | .illegal15 => true

end Sys2Proof
end

