-- ==== Sys2Proof/Decode.lean ====
section
/-! DEFINITION. The decoder DEC (30_encoding.md rule R104), the encoder (rule R132), the opcode map (rule R106),
the byte order of the program image (20_memory.md rule R77), and the Bit Codec contract the spec records for
completeness (30_encoding.md rules R120 to R124; no part of the running machine, 00_scope.md rule R6). -/

namespace Sys2Proof

/-! ### Fields of a word -/

/-- `w[31:28]` (R101, R102). -/
def opField (w : Word) : BitVec 4 := w.extractLsb' 28 4

/-- `w[8:6]`, the field `a` of the three-register format (R101). -/
def aField (w : Word) : Reg := (w.extractLsb' 6 3).toFin

/-- `w[5:3]` (R101). -/
def bField (w : Word) : Reg := (w.extractLsb' 3 3).toFin

/-- `w[2:0]` (R101). -/
def cField (w : Word) : Reg := (w.extractLsb' 0 3).toFin

/-- `w[27:25]`, the field `a` of the immediate format (R102, 90_conflicts.md C1). -/
def aImmField (w : Word) : Reg := (w.extractLsb' 25 3).toFin

/-- `w[24:0]` (R102, R110). -/
def immField (w : Word) : BitVec 25 := w.extractLsb' 0 25

/-! ### The decoder -/

/-- `Decode` (R104): total on all 2^32 words, reading no state. The opcode alone selects the format (R103) and
the instruction (R109). -/
def decode (w : Word) : Instr :=
  match (opField w).toNat with
  | 0 => .cmov (aField w) (bField w) (cField w)
  | 1 => .sload (aField w) (bField w) (cField w)
  | 2 => .sstore (aField w) (bField w) (cField w)
  | 3 => .add (aField w) (bField w) (cField w)
  | 4 => .mul (aField w) (bField w) (cField w)
  | 5 => .div (aField w) (bField w) (cField w)
  | 6 => .nand (aField w) (bField w) (cField w)
  | 7 => .halt
  | 8 => .map (bField w) (cField w)
  | 9 => .unmap (cField w)
  | 10 => .output (cField w)
  | 11 => .input (cField w)
  | 12 => .loadp (bField w) (cField w)
  | 13 => .loadv (aImmField w) (immField w).toNat
  | 14 => .illegal14
  | _ => .illegal15

/-! ### The encoder -/

/-- The opcode numbers of R106 (numbering: R107, decision D3). -/
def opcodeOf : Instr → BitVec 4
  | .cmov _ _ _ => 0
  | .sload _ _ _ => 1
  | .sstore _ _ _ => 2
  | .add _ _ _ => 3
  | .mul _ _ _ => 4
  | .div _ _ _ => 5
  | .nand _ _ _ => 6
  | .halt => 7
  | .map _ _ => 8
  | .unmap _ => 9
  | .output _ => 10
  | .input _ => 11
  | .loadp _ _ => 12
  | .loadv _ _ => 13
  | .illegal14 => 14
  | .illegal15 => 15

/-- A field's value moved up to bit position `pos`. -/
def placed {n : Nat} (v : BitVec n) (pos : Nat) : Word := v.setWidth 32 <<< pos

/-- `(op << 28) | (a << 6) | (b << 3) | c` (R132). -/
def encodeReg3 (op : BitVec 4) (a b c : Reg) : Word :=
  placed op 28 ||| placed (BitVec.ofFin (w := 3) a) 6 ||| placed (BitVec.ofFin (w := 3) b) 3
    ||| placed (BitVec.ofFin (w := 3) c) 0

/-- `(13 << 28) | (a << 25) | imm` (R132), for an immediate that fits. -/
def encodeImm (op : BitVec 4) (a : Reg) (imm : Nat) : Word :=
  placed op 28 ||| placed (BitVec.ofFin (w := 3) a) 25 ||| placed (BitVec.ofNat 25 imm) 0

/-- The canonical word of a well-formed instruction: zeros in every ignored bit and unused field (R132). -/
def encode (i : Instr) : Word :=
  match i with
  | .cmov a b c => encodeReg3 (opcodeOf i) a b c
  | .sload a b c => encodeReg3 (opcodeOf i) a b c
  | .sstore a b c => encodeReg3 (opcodeOf i) a b c
  | .add a b c => encodeReg3 (opcodeOf i) a b c
  | .mul a b c => encodeReg3 (opcodeOf i) a b c
  | .div a b c => encodeReg3 (opcodeOf i) a b c
  | .nand a b c => encodeReg3 (opcodeOf i) a b c
  | .halt => encodeReg3 (opcodeOf i) 0 0 0
  | .map b c => encodeReg3 (opcodeOf i) 0 b c
  | .unmap c => encodeReg3 (opcodeOf i) 0 0 c
  | .output c => encodeReg3 (opcodeOf i) 0 0 c
  | .input c => encodeReg3 (opcodeOf i) 0 0 c
  | .loadp b c => encodeReg3 (opcodeOf i) 0 b c
  | .loadv a imm => encodeImm (opcodeOf i) a imm
  | .illegal14 => encodeReg3 (opcodeOf i) 0 0 0
  | .illegal15 => encodeReg3 (opcodeOf i) 0 0 0

/-- What an assembler does: it refuses an instruction that is not well formed and does not truncate its
immediate (R132). -/
def assemble (i : Instr) : Option Word := if i.wf then some (encode i) else none

/-! ### Bytes: the big-endian boundary of the program image -/

/-- `{b0, b1, b2, b3}`: `b0` supplies bits 31:24 (20_memory.md rule R77). -/
def wordOfBytes (b0 b1 b2 b3 : Byte) : Word := b0 ++ b1 ++ b2 ++ b3

/-- A word's four bytes, most significant first (R77). -/
def bytesOfWord (w : Word) : List Byte :=
  [w.extractLsb' 24 8, w.extractLsb' 16 8, w.extractLsb' 8 8, w.extractLsb' 0 8]

/-- The words of a program image: each group of four bytes big-endian (70_reset_and_hazards.md rule R261), a
short trailing group filled with zeros in its low-order bytes (rule R263). -/
def imageWords : List Byte → List Word
  | [] => []
  | [b0] => [wordOfBytes b0 0#8 0#8 0#8]
  | [b0, b1] => [wordOfBytes b0 b1 0#8 0#8]
  | [b0, b1, b2] => [wordOfBytes b0 b1 b2 0#8]
  | b0 :: b1 :: b2 :: b3 :: rest => wordOfBytes b0 b1 b2 b3 :: imageWords rest

/-- Why a byte sequence holds no instruction. -/
inductive DecodeError where
  /-- Fewer than the four bytes of an instruction word (R100: one length only). Raised by `decodeBytes`. Safe: the
  machine fetches whole words and never meets it. -/
  | truncated
  deriving DecidableEq, Repr

/-- Reads one instruction from the front of a byte sequence (R100 and R77). -/
def decodeBytes : List Byte → Except DecodeError (Instr × List Byte)
  | b0 :: b1 :: b2 :: b3 :: rest => .ok (decode (wordOfBytes b0 b1 b2 b3), rest)
  | [] => .error .truncated
  | [_] => .error .truncated
  | [_, _] => .error .truncated
  | [_, _, _] => .error .truncated

/-- The instruction's image bytes. -/
def encodeBytes (i : Instr) : List Byte := bytesOfWord (encode i)

/-- The word of a table row: the low `nbits` of `w`, the bits above zero. -/
def tableWord (nbits w : Nat) : Word := BitVec.ofNat 32 (w % 2 ^ nbits)

/-- The host's reading of a table row: bit 0 of `w` is bit 0 of the 32-bit instruction word, whose bytes lie
most significant first (R77). -/
def decodeTableWord (nbits w : Nat) : Option Instr :=
  match decodeBytes (bytesOfWord (tableWord nbits w)) with
  | .ok (i, _) => some i
  | .error _ => none

/-! ### The Bit Codec contract (R120 to R124) -/

/-- A field of the 64-bit codec word that meets the callers' guarantee of R121 (`offset + width ≤ 64`); width 0 is
not defined by the source (R124, 93_implementation_defined.md U3 and U4). -/
structure CodecField where
  width : Nat
  offset : Nat
  width_pos : 1 ≤ width
  fits : offset + width ≤ 64

/-- Why `codecSet` fails: the value does not fit (R122). The machine never meets it (R233, cause 11). -/
inductive CodecError where
  | overflow
  deriving DecidableEq, Repr

/-- The bits of a field, in place. -/
def CodecField.mask (f : CodecField) : BitVec 64 := (BitVec.allOnes 64 >>> (64 - f.width)) <<< f.offset

/-- `get(word, width, offset)`: the unsigned field `word[offset + width - 1 : offset]` (R120). -/
def codecGet (word : BitVec 64) (f : CodecField) : BitVec 64 := (word &&& f.mask) >>> f.offset

/-- `set(word, width, offset, v)`: overflow exactly when `v >= 2^width` and `width < 64`, else `word` with the field
replaced and all other bits untouched (R120, R122). -/
def codecSet (word : BitVec 64) (f : CodecField) (v : BitVec 64) : Except CodecError (BitVec 64) :=
  if f.width < 64 ∧ 2 ^ f.width ≤ v.toNat then .error .overflow
  else .ok ((word &&& ~~~f.mask) ||| (v <<< f.offset))

/-- The decoder's six (width, offset) pairs (R121). -/
def opCodec : CodecField := ⟨4, 28, by decide, by decide⟩
def aImmCodec : CodecField := ⟨3, 25, by decide, by decide⟩
def immCodec : CodecField := ⟨25, 0, by decide, by decide⟩
def aCodec : CodecField := ⟨3, 6, by decide, by decide⟩
def bCodec : CodecField := ⟨3, 3, by decide, by decide⟩
def cCodec : CodecField := ⟨3, 0, by decide, by decide⟩

/-- The loader's byte field number `k`, at offsets 24, 16, 8, 0 (93_implementation_defined.md U3). -/
def byteCodec (k : Fin 4) : CodecField := ⟨8, 24 - 8 * k.val, by decide, by omega⟩

/-- The source's software loader: insert the four bytes of a group into an empty accumulator, from the highest byte
index down to the lowest (70_reset_and_hazards.md rule R263). -/
def codecAssemble (b0 b1 b2 b3 : Byte) : Except CodecError (BitVec 64) :=
  (codecSet 0#64 (byteCodec 3) (b3.setWidth 64)).bind fun w3 =>
  (codecSet w3 (byteCodec 2) (b2.setWidth 64)).bind fun w2 =>
  (codecSet w2 (byteCodec 1) (b1.setWidth 64)).bind fun w1 =>
  codecSet w1 (byteCodec 0) (b0.setWidth 64)

end Sys2Proof
end

