-- ==== Sys2Proof/Config.lean ====
section
/-! DEFINITION. The parameters the source leaves open (00_scope.md rule R11), and the one free value of the
model: the answers of an input device about which nothing is known. -/

namespace Sys2Proof

/-- One IF-IN event: the device answers an INPUT with a byte or with the end-of-input mark
(00_scope.md rule R8, 45_io.md rule R194). -/
inductive InEvent where
  | byte (b : Byte)
  | endOfInput
  deriving DecidableEq, Repr, Inhabited

/-- What a fetch does when `pc > SegLen(0)` (R11, decision D7). -/
inductive PcPastEnd where
  | fault
  | stop
  deriving DecidableEq, Repr

/-- The named parameters of R11, all eight of them. -/
structure Config where
  /-- `PCW`, the width of the program counter in bits (open: decision D5, 10_state.md rule R28). -/
  pcw : Nat
  /-- `IDW`, the width of a segment id in bits (decision D10: 32, an id is held in a register). -/
  idw : Nat
  /-- `NSEG_MAX`, the greatest number of table positions. -/
  nsegMax : Nat
  /-- `MEM_WORDS_MAX`, the greatest total number of mapped words; `none` is `unbounded`. -/
  memWordsMax : Option Nat
  /-- `IMAGE_WORDS_MAX`, the greatest length of the program image in words. -/
  imageWordsMax : Nat
  /-- `PC_PAST_END`. -/
  pcPastEnd : PcPastEnd
  /-- `EOF_STICKY`. -/
  eofSticky : Bool
  /-- `EXIT_FAULT`, the non-zero exit status of a faulted run. -/
  exitFault : Nat
  deriving DecidableEq, Repr

namespace Config

/-- The defaults of R11. -/
def default : Config where
  pcw := 32
  idw := 32
  nsegMax := 2 ^ 32
  memWordsMax := none
  imageWordsMax := maxSegLen
  pcPastEnd := .fault
  eofSticky := true
  exitFault := 1

/-- The ranges: a program counter that holds every value LOADP can write, so at least 32 bits (10_state.md rule R28;
log entry 5), `IDW = 32` (decision D10), `1 <= NSEG_MAX <= 2^IDW`, images of at most `2^32 - 1` words, a non-zero
`EXIT_FAULT` (R11). -/
def wf (c : Config) : Bool :=
  decide (32 ≤ c.pcw) && decide (c.idw = 32) && decide (1 ≤ c.nsegMax) && decide (c.nsegMax ≤ 2 ^ c.idw)
    && decide (c.imageWordsMax ≤ maxSegLen) && decide (c.exitFault ≠ 0)

/-- DESIGN CHOICE (log entry 6). The FREE VALUE of the model: what the input device answers to the INPUT number
`n` of the run (counting from 0) when the state does not list the answer. Nothing constrains it beyond its
type, which is R195's and R51's range: a byte, or end-of-input. -/
opaque freeInput : Nat → InEvent

end Config

end Sys2Proof
end

