-- ==== Sys2Proof/Machine/State.lean ====
section
/-! DEFINITION. The state of the machine as plain data, and the state after reset (10_state.md rules R20 to R55). -/

namespace Sys2Proof.Machine

/-! ### Run status (10_state.md rules R36 to R38) -/

/-- `STATUS` (R36). HALTED and FAULTED are terminal. -/
inductive Status where
  | running
  | halted
  | faulted
  deriving DecidableEq, Repr

/-- `STOP_REASON` (R37): why STATUS is HALTED; `noReason` while RUNNING or FAULTED. -/
inductive StopReason where
  | noReason
  | haltInstruction
  | endOfProgram
  deriving DecidableEq, Repr

/-- `CAUSE`, the cause of the fatal fault (60_exceptions.md rule R221); `noCause` is its NONE. -/
inductive Cause where
  | noCause
  | illegalOpcode
  | divideByZero
  | segmentIdOutOfRange
  | segmentUnmapped
  | offsetOutOfRange
  | outputOutOfRange
  | fetchOutOfRange
  | unmapSegmentZero
  | resourceExhausted
  /-- reserved, raised by nothing (R233) -/
  | registerOutOfRange
  /-- reserved, raised by nothing (R233) -/
  | codecOverflow
  deriving DecidableEq, Repr

/-! ### Segments (10_state.md rules R40 to R48) -/

/-- One word of a segment that is not zero: its offset and its value. -/
abbrev Cell := Nat × Word

/-- A segment (R43): its length in words and its words. An offset that `cells` does not list reads as 0, which is what
`Allocate` fills a segment with (20_memory.md rule R68). Canonical form: offsets strictly rising and below `len`, no
zero value (`Segment.wf`), so that equal segments are equal data. -/
structure Segment where
  len : Nat
  cells : List Cell
  deriving DecidableEq, Repr

/-- The contents of the segment table: position `id` holds `SEG[id]`, and the number of positions is `TLEN` (R40, R41).
The position of an unmapped id holds the empty segment (R48: "A model should drop them at UNMAP"). -/
abbrev Memory := List Segment

/-! ### The I/O streams (10_state.md rules R50 and R51, 45_io.md rule R196) -/

/-- The input side as the machine stands to it. `arrived` and `silent` are the environment's, `answered` and `ended`
the read position of R51. -/
structure InPort where
  /-- Events the device has supplied and no INPUT has taken yet, oldest first. -/
  arrived : List InEvent
  /-- What holds once `arrived` is used up: `true`, the device has not answered yet, so an INPUT waits (R196); `false`,
  it answers, and the answer is the free value `Config.freeInput answered`. -/
  silent : Bool
  /-- How many answers INPUT has had so far: the read position of R51. -/
  answered : Nat
  /-- End-of-input has been observed (R51, R55). -/
  ended : Bool
  deriving DecidableEq, Repr

/-- The I/O instruction a waiting machine has not completed (R196). -/
inductive IoWait where
  /-- an INPUT into this register, whose answer has not come -/
  | input (c : Reg)
  /-- an OUTPUT of this byte, which the device has not taken -/
  | output (b : Byte)
  deriving DecidableEq, Repr

/-- What a device can do between two steps of the machine (45_io.md rule R196, 70_reset_and_hazards.md rule R269; log
entry 24). -/
inductive DeviceMove where
  /-- the input device supplies one more event -/
  | supplies (e : InEvent)
  /-- the input device from now on leaves an INPUT waiting (`true`), or answers it (`false`), once what it has supplied is
  used up -/
  | silent (b : Bool)
  /-- the output device from now on takes a byte at once (`true`), or leaves an OUTPUT waiting (`false`) -/
  | outReady (b : Bool)
  deriving DecidableEq, Repr

/-! ### The state -/

/-- Everything the spec gives the machine. `TLEN` is the length of `segs`; `EXIT_STATUS` is a function of `status`
(R39). -/
structure State where
  /-- `x[0..7]` (R20) -/
  regs : Vector Word 8
  /-- `pc`, a word index into segment 0 (R27), a natural number of `cfg.pcw` bits (R28); instructions and
  the fetch write it through `State.setPc` -/
  pc : Nat
  /-- `STATUS` (R36) -/
  status : Status
  /-- `STOP_REASON` (R37) -/
  stopReason : StopReason
  /-- `CAUSE` (R38) -/
  cause : Cause
  /-- `SEG[0 .. TLEN-1]` (R40, R41) -/
  segs : Memory
  /-- `FL`, the stack of released ids, its top first (R42) -/
  freeList : List Word
  /-- `OUT`, the bytes emitted so far, oldest first (R50) -/
  out : List Byte
  /-- `IN` (R51) -/
  input : InPort
  /-- The environment's: the output device takes a byte at once (R196); `false`, an OUTPUT waits. -/
  outReady : Bool
  /-- The I/O instruction in progress, if the machine waits in one (R196). -/
  wait : Option IoWait
  /-- The parameters of 00_scope.md rule R11; no step changes them. -/
  cfg : Config
  deriving DecidableEq, Repr

/-- The state after reset (10_state.md rule R55, 70_reset_and_hazards.md rule R262) for the program image of zero bytes
(rule R264). `State.boot` is the reset with an image. -/
def State.reset : State where
  regs := Vector.replicate 8 0#32
  pc := 0
  status := .running
  stopReason := .noReason
  cause := .noCause
  segs := [⟨0, []⟩]
  freeList := []
  out := []
  input := ⟨[], false, 0, false⟩
  outReady := true
  wait := none
  cfg := Config.default

/-! ### How a step can fail to answer a state -/

/-- Reasons of the host's fault outcome: none. Every fatal fault of the spec is a state of the machine, STATUS = FAULTED
with its CAUSE (60_exceptions.md rule R222), reached by a next state; the spec leaves no instruction without an
effect (rule R246: no undefined behaviour). No meaning and no step raises a host fault; that is safe and exact. -/
inductive Fault where
  deriving DecidableEq, Repr

/-- Reasons of the host's refusal outcome. -/
inductive Refusal where
  /-- The instruction has no meaning in the model yet. Raised by an arm of `exec` only; no arm raises it now. Safe: the
  model stops where the hardware goes on. -/
  | notModelled (mnemonic : String)
  deriving DecidableEq, Repr

/-- The outcome of an instruction or a step. -/
abbrev Result := Host.Outcome State Fault Refusal

end Sys2Proof.Machine
end

