-- ==== Sys2Proof/Machine/Flags.lean ====
section
/-! DEFINITION. The machine has no flags and no condition codes (10_state.md rule R52). What stands here are the tests
instructions make on an operand's value instead: CMOV's condition and the value-dependent fault conditions. -/

namespace Sys2Proof.Machine

/-- CMOV's condition, on all 32 bits of the register (40_cmov.md rule R140). -/
def condHolds (v : Word) : Bool := decide (v ≠ 0#32)

/-- DIV's check of its divisor (42_arithmetic_logic.md rule R162). -/
def divisorCheck (d : Word) : Option Cause := if d = 0#32 then some .divideByZero else none

/-- OUTPUT's check of its value (45_io.md rule R191). -/
def byteRangeCheck (v : Word) : Option Cause := if 255 < v.toNat then some .outputOutOfRange else none

/-- UNMAP's check for id 0 (44_map_unmap.md rule R184). -/
def programIdCheck (id : Word) : Option Cause := if id = 0#32 then some .unmapSegmentZero else none

/-- The numeric encoding of STATUS (R36). -/
def Status.code : Status → Nat
  | .running => 0
  | .halted => 1
  | .faulted => 2

/-- The numeric encoding of STOP_REASON (R37). -/
def StopReason.code : StopReason → Nat
  | .noReason => 0
  | .haltInstruction => 1
  | .endOfProgram => 2

/-- The cause codes (60_exceptions.md rule R221). -/
def Cause.code : Cause → Nat
  | .noCause => 0
  | .illegalOpcode => 1
  | .divideByZero => 2
  | .segmentIdOutOfRange => 3
  | .segmentUnmapped => 4
  | .offsetOutOfRange => 5
  | .outputOutOfRange => 6
  | .fetchOutOfRange => 7
  | .unmapSegmentZero => 8
  | .resourceExhausted => 9
  | .registerOutOfRange => 10
  | .codecOverflow => 11

end Sys2Proof.Machine
end

