-- ==== Sys2Proof/Machine/Ops.lean ====
section
/-! DEFINITION. The named operations every instruction is made of: registers, the segment table (20_memory.md), taking a
fatal fault (60_exceptions.md rule R222), I/O events (45_io.md), the sequencer's fetch (10_state.md rule R30), and
what the environment does (image load, device events). -/

namespace Sys2Proof.Machine

/-! ### The words of a segment -/

/-- The word at an offset: 0 where none is listed. -/
def cellRead : List Cell → Nat → Word
  | [], _ => 0#32
  | (k, v) :: rest, off => if k = off then v else cellRead rest off

/-- Sets the word at an offset and keeps the canonical form: a zero is not listed. -/
def cellWrite : List Cell → Nat → Word → List Cell
  | [], off, v => if v = 0#32 then [] else [(off, v)]
  | (k, u) :: rest, off, v =>
    if off < k then (if v = 0#32 then (k, u) :: rest else (off, v) :: (k, u) :: rest)
    else if off = k then (if v = 0#32 then rest else (off, v) :: rest)
    else (k, u) :: cellWrite rest off v

/-- The cells of a list of words laid out from an offset on. -/
def cellsFrom : Nat → List Word → List Cell
  | _, [] => []
  | off, w :: rest => if w = 0#32 then cellsFrom (off + 1) rest else (off, w) :: cellsFrom (off + 1) rest

/-- Canonical form of the cells from offset `lo` on, below `len`: offsets strictly rising, no zero value. -/
def cellsWf : Nat → Nat → List Cell → Bool
  | _, _, [] => true
  | lo, len, (k, v) :: rest => decide (lo ≤ k) && decide (k < len) && decide (v ≠ 0#32) && cellsWf (k + 1) len rest

/-- A zero-filled segment of `n` words (R43, R68). -/
def Segment.zero (n : Nat) : Segment := ⟨n, []⟩

/-- What stands at the position of an unmapped id: nothing (R48). -/
def Segment.empty : Segment := Segment.zero 0

/-- The segment whose words are the list's, in order. -/
def Segment.ofWords (ws : List Word) : Segment := ⟨ws.length, cellsFrom 0 ws⟩

/-- `SEG[id].word[off]`. -/
def Segment.word (g : Segment) (off : Nat) : Word := cellRead g.cells off

/-- `SEG[id].word[off] <- v`; the length stays (R43). -/
def Segment.put (g : Segment) (off : Nat) (v : Word) : Segment := ⟨g.len, cellWrite g.cells off v⟩

/-- A legal segment in canonical form: at most 2^32 - 1 words (R43), cells canonical and inside the segment. -/
def Segment.wf (g : Segment) : Bool := decide (g.len ≤ maxSegLen) && cellsWf 0 g.len g.cells

/-- Every segment of the table is in canonical form. -/
def Memory.wf (m : Memory) : Bool := m.all Segment.wf

/-! ### Registers and the program counter -/

/-- `x[i]` (R14, R20). All eight registers are alike (R21). -/
def State.reg (s : State) (i : Reg) : Word := s.regs[i.val]

/-- `x[i] <- v`. -/
def State.setReg (s : State) (i : Reg) (v : Word) : State := { s with regs := s.regs.set i.val v }

/-- `pc <- t`: the counter holds PCW bits of it (R28), all of it for a `t` below 2^32 (`State.pc_fits`). -/
def State.setPc (s : State) (t : Nat) : State := { s with pc := t % 2 ^ s.cfg.pcw }

/-- `pc <- pc + 1`, made at fetch; it never wraps there (R31, R34). -/
def State.advancePc (s : State) : State := s.setPc (s.pc + 1)

/-! ### Ending a run -/

/-- `raise Fault(CAUSE)`: STATUS and CAUSE are written and nothing else (60_exceptions.md rule R222). There is no handler
and no return (rule R237); the one way out of FAULTED is a reset with an image, `State.boot`. -/
def State.raiseFault (s : State) (c : Cause) : State := { s with status := .faulted, cause := c }

/-- Normal termination (10_state.md rule R35, 43_halt.md rule R170). -/
def State.stopRun (s : State) (r : StopReason) : State := { s with status := .halted, stopReason := r }

/-- The end of an instruction: its effect, or the fault that one of its checks raised, the effect then not made (R223). -/
def State.conclude (s : State) (r : Except Cause State) : State :=
  match r with
  | .ok t => t
  | .error c => s.raiseFault c

/-- Runs the effect if the check raises nothing. -/
def checked (check : Option Cause) (effect : Except Cause State) : Except Cause State :=
  match check with
  | some c => .error c
  | none => effect

/-! ### The segment table -/

/-- `TLEN`, the number of table positions created so far (R41). -/
def State.tlen (s : State) : Nat := s.segs.length

/-- `SEG[id]`; the empty segment where there is no such position (log entry 16). -/
def State.seg (s : State) (id : Word) : Segment := s.segs.getD id.toNat Segment.empty

/-- `SegLen(id)` (R64). -/
def State.segLen (s : State) (id : Word) : Nat := (s.seg id).len

/-- `SEG <- m`. -/
def State.setSegs (s : State) (m : Memory) : State := { s with segs := m }

/-- `FL <- fl`. -/
def State.setFreeList (s : State) (fl : List Word) : State := { s with freeList := fl }

/-- `SEG[id] <- g`, at a position that exists. -/
def State.setSeg (s : State) (id : Word) (g : Segment) : State := s.setSegs (s.segs.set id.toNat g)

/-- A segment id is mapped: `id < TLEN` and not on `FL` (R44, R47). -/
def State.mapped (s : State) (id : Word) : Bool := decide (id.toNat < s.tlen) && decide (id ∉ s.freeList)

/-- `SegCheck(id)`: the fault it raises, if any (R63). -/
def State.segCheck (s : State) (id : Word) : Option Cause :=
  if s.tlen ≤ id.toNat then some .segmentIdOutOfRange
  else if id ∈ s.freeList then some .segmentUnmapped
  else none

/-- `SegCheck` and then the bounds check (R65). An offset is a natural number: a register's value, or `pc`. -/
def State.accessCheck (s : State) (id : Word) (off : Nat) : Option Cause :=
  match s.segCheck id with
  | some c => some c
  | none => if s.segLen id ≤ off then some .offsetOutOfRange else none

/-- `MemRead((id, off), 32)` (R66). -/
def State.memRead (s : State) (id : Word) (off : Nat) : Except Cause Word :=
  match s.accessCheck id off with
  | some c => .error c
  | none => .ok ((s.seg id).word off)

/-- `MemWrite((id, off), 32, v)` (R67). -/
def State.memWrite (s : State) (id : Word) (off : Nat) (v : Word) : Except Cause State :=
  checked (s.accessCheck id off) (.ok (s.setSeg id ((s.seg id).put off v)))

/-- The sum of `SEG[j].len` over mapped `j` (R49, R75). -/
def State.mappedWords (s : State) : Nat :=
  (((List.range s.tlen).filter fun j => s.mapped (BitVec.ofNat 32 j)).map fun j => s.segLen (BitVec.ofNat 32 j)).sum

/-- Whether a total of mapped words passes MEM_WORDS_MAX. -/
def overMemory (c : Config) (total : Nat) : Bool :=
  match c.memWordsMax with
  | none => false
  | some m => decide (m < total)

/-- `CapacityCheckAllocate(n)` (R75). The test `NSEG_MAX <= TLEN` is R75's `TLEN = NSEG_MAX` in every reachable state
(log entry 18). -/
def State.allocateCheck (s : State) (n : Nat) : Option Cause :=
  if (s.freeList.isEmpty && decide (s.cfg.nsegMax ≤ s.tlen)) || overMemory s.cfg (s.mappedWords + n)
  then some .resourceExhausted else none

/-- `CapacityCheckDuplicate(id)` (R75): the old segment 0 is counted out. -/
def State.duplicateCheck (s : State) (id : Word) : Option Cause :=
  if overMemory s.cfg (s.mappedWords - s.segLen 0#32 + s.segLen id) then some .resourceExhausted else none

/-- `Allocate(n)` after its capacity check: the id returned and the state (R68). -/
def State.allocated (s : State) (n : Nat) : Word × State :=
  match s.freeList with
  | id :: rest => (id, (s.setFreeList rest).setSeg id (Segment.zero n))
  | [] => (BitVec.ofNat 32 s.tlen, s.setSegs (s.segs ++ [Segment.zero n]))

/-- `Allocate(n)` (R68). -/
def State.allocate (s : State) (n : Nat) : Except Cause (Word × State) :=
  match s.allocateCheck n with
  | some c => .error c
  | none => .ok (s.allocated n)

/-- `Release(id)`: push the id (R70); its words are dropped (R48). -/
def State.release (s : State) (id : Word) : State :=
  (s.setFreeList (id :: s.freeList)).setSeg id Segment.empty

/-- `DuplicateInto0(id)` (R73). -/
def State.duplicateInto0 (s : State) (id : Word) : Except Cause State :=
  checked (s.duplicateCheck id) (.ok (s.setSeg 0#32 (s.seg id)))

/-! ### I/O events -/

/-- `Output(byte)`: one IF-OUT event (R50, R190). -/
def State.emit (s : State) (b : Byte) : State := { s with out := s.out ++ [b] }

/-- The state of the input port. -/
def State.setInput (s : State) (p : InPort) : State := { s with input := p }

/-- The I/O instruction the machine waits in. -/
def State.setWait (s : State) (w : Option IoWait) : State := { s with wait := w }

/-- End-of-input has been observed and persists (R51, EOF_STICKY). -/
def State.inputClosed (s : State) : Bool := s.input.ended && s.cfg.eofSticky

/-- The device has answered or answers at once: an INPUT can complete (R196). -/
def State.inputReady (s : State) : Bool := s.inputClosed || !s.input.arrived.isEmpty || !s.input.silent

/-- The answer to an INPUT (R194): end-of-input where it persists, else the oldest event the device supplied, else
the free value. -/
def State.nextInput (s : State) : InEvent :=
  if s.inputClosed then .endOfInput
  else match s.input.arrived with
    | e :: _ => e
    | [] => Config.freeInput s.input.answered

/-- The read position after an INPUT. -/
def InPort.taken (p : InPort) (e : InEvent) : InPort :=
  ⟨p.arrived.tail, p.silent, p.answered + 1, p.ended || decide (e = .endOfInput)⟩

/-- `Input()`: one IF-IN event; "nothing is consumed" once end-of-input persists (R194). -/
def State.consumeInput (s : State) : State :=
  if s.inputClosed then s else s.setInput (s.input.taken s.nextInput)

/-- The value INPUT writes (R194). -/
def inputValue : InEvent → Word
  | .byte b => zextByte b
  | .endOfInput => endOfInputWord

/-- An INPUT whose answer is there: the answer is consumed and written (R194). -/
def State.completeInput (s : State) (c : Reg) : State :=
  (s.consumeInput.setReg c (inputValue s.nextInput)).setWait none

/-- An OUTPUT whose byte the device takes (R190). -/
def State.completeOutput (s : State) (b : Byte) : State := (s.emit b).setWait none

/-- An I/O instruction completes, or the machine waits in it with nothing else changed (R196). -/
def State.tryIo (s : State) : IoWait → State
  | .input c => if s.inputReady then s.completeInput c else s.setWait (some (.input c))
  | .output b => if s.outReady then s.completeOutput b else s.setWait (some (.output b))

/-! ### The sequencer (10_state.md rule R30) -/

/-- What the sequencer does before an instruction runs. -/
inductive Fetched where
  /-- No instruction is fetched in this step; the step ends in this state. -/
  | ended (s : State)
  /-- The word fetched, and the state with `pc` incremented. -/
  | word (w : Word) (s : State)
  deriving DecidableEq, Repr

/-- A step that finds `pc > SegLen(0)` (R35, PC_PAST_END). -/
def State.pastEnd (s : State) : State :=
  match s.cfg.pcPastEnd with
  | .fault => s.raiseFault .fetchOutOfRange
  | .stop => s.stopRun .endOfProgram

/-- The end-of-program test, the fetch and the increment of `pc` (R30, R31, R35). -/
def State.fetch (s : State) : Fetched :=
  if s.pc = s.segLen 0#32 then .ended (s.stopRun .endOfProgram)
  else if s.segLen 0#32 < s.pc then .ended s.pastEnd
  else match s.memRead 0#32 s.pc with
    | .error c => .ended (s.raiseFault c)
    | .ok w => .word w s.advancePc

/-- One pass of the sequencer up to `Execute`: a terminal state stays as it is (R36), a machine that waits in an I/O
instruction goes on waiting or completes it (R196), a running one fetches. -/
def State.sequence (s : State) : Fetched :=
  match s.status with
  | .halted => .ended s
  | .faulted => .ended s
  | .running =>
    match s.wait with
    | some w => .ended (s.tryIo w)
    | none => s.fetch

/-! ### The environment's side -/

/-- Reset with a program image (70_reset_and_hazards.md rules R260 to R264): the image becomes segment 0, everything else is
as in R262, nothing survives from an earlier run. An image longer than IMAGE_WORDS_MAX is refused by the loader, and
no run takes place (R261). -/
def State.boot (cfg : Config) (image : List Byte) : Option State :=
  if (imageWords image).length ≤ cfg.imageWordsMax then
    some { State.reset with cfg := cfg, segs := [Segment.ofWords (imageWords image)] }
  else none

/-- The input device supplies one event on IF-IN (00_scope.md rule R8). -/
def State.deviceSupplies (s : State) (e : InEvent) : State :=
  s.setInput { s.input with arrived := s.input.arrived ++ [e] }

/-- The input device answers, or stays silent, once what it has supplied is used up (45_io.md rule R196). -/
def State.deviceSilent (s : State) (b : Bool) : State := s.setInput { s.input with silent := b }

/-- The output device takes bytes at once, or not (45_io.md rule R196). -/
def State.deviceOutReady (s : State) (b : Bool) : State := { s with outReady := b }

/-- One move of a device. -/
def State.deviceMove (s : State) : DeviceMove → State
  | .supplies e => s.deviceSupplies e
  | .silent b => s.deviceSilent b
  | .outReady b => s.deviceOutReady b

/-- The moves of the devices, one after the other. -/
def State.devices (s : State) (ms : List DeviceMove) : State := ms.foldl State.deviceMove s

/-- `EXIT_STATUS` (10_state.md rule R39, 60_exceptions.md rule R238): not defined while RUNNING. -/
def State.exitStatus (s : State) : Option Nat :=
  match s.status with
  | .running => none
  | .halted => some 0
  | .faulted => some s.cfg.exitFault

/-! ### Placing one instruction for the next fetch (log entry 9) -/

/-- A segment long enough to hold `off`, with `w` there. -/
def Segment.withWord (g : Segment) (off : Nat) (w : Word) : Segment :=
  (⟨max g.len (off + 1), g.cells⟩ : Segment).put off w

/-- Segment 0 of the table holds `w` at `off`. -/
def Memory.withProgramWord (m : Memory) (off : Nat) (w : Word) : Memory :=
  match m with
  | [] => [Segment.empty.withWord off w]
  | g :: rest => g.withWord off w :: rest

/-- The machine runs, waits in nothing, and has `w` where it fetches next. `pc` stays unless it is 2^32 - 1 or more, an
index no legal segment holds. -/
def State.plant (s : State) (w : Word) : State :=
  let pc := if s.pc < maxSegLen then s.pc else 0
  { s with
    pc := pc
    status := .running
    stopReason := .noReason
    cause := .noCause
    wait := none
    freeList := s.freeList.filter fun id => decide (id ≠ 0#32)
    segs := Memory.withProgramWord s.segs pc w }

end Sys2Proof.Machine
end

