-- ==== Sys2Proof/Machine/Operands.lean ====
section
/-! DEFINITION. The operand forms (30_encoding.md rules R105 and R110, 41_segment_access.md): a register as source or
destination (`State.reg`, `State.setReg`), the one addressing mode, and the one immediate. -/

namespace Sys2Proof.Machine

/-- An address: a segment id and a word offset in it (20_memory.md rule R60). -/
structure Address where
  id : Word
  off : Word
  deriving DecidableEq, Repr

/-- The one addressing mode: the id in one register, the offset in another, no sum, no scaling (41_segment_access.md). -/
def State.address (s : State) (idReg offReg : Reg) : Address := ⟨s.reg idReg, s.reg offReg⟩

/-- The word at an address, or the fault of reading it (R66). -/
def State.load (s : State) (p : Address) : Except Cause Word := s.memRead p.id p.off.toNat

/-- Storing a word at an address, or the fault of doing so (R67). -/
def State.store (s : State) (p : Address) (v : Word) : Except Cause State := s.memWrite p.id p.off.toNat v

/-- The immediate operand: `zext_32(imm)` (R110). -/
def immOperand (imm : Nat) : Word := zextImm (BitVec.ofNat 25 imm)

/-- Two source registers and the operation on their values. -/
def State.binary (s : State) (f : Word → Word → Word) (b c : Reg) : Word := f (s.reg b) (s.reg c)

/-- The register an instruction writes, if any (10_state.md rule R23). -/
def destReg : Instr → Option Reg
  | .cmov a _ _ => some a
  | .sload a _ _ => some a
  | .sstore _ _ _ => none
  | .add a _ _ => some a
  | .mul a _ _ => some a
  | .div a _ _ => some a
  | .nand a _ _ => some a
  | .halt => none
  | .map b _ => some b
  | .unmap _ => none
  | .output _ => none
  | .input c => some c
  | .loadp _ _ => none
  | .loadv a _ => some a
  | .illegal14 => none
  | .illegal15 => none

/-- The causes an instruction can raise (60_exceptions.md rule R234). -/
def causesOf : Instr → List Cause
  | .cmov _ _ _ => []
  | .sload _ _ _ => [.segmentIdOutOfRange, .segmentUnmapped, .offsetOutOfRange]
  | .sstore _ _ _ => [.segmentIdOutOfRange, .segmentUnmapped, .offsetOutOfRange]
  | .add _ _ _ => []
  | .mul _ _ _ => []
  | .div _ _ _ => [.divideByZero]
  | .nand _ _ _ => []
  | .halt => []
  | .map _ _ => [.resourceExhausted]
  | .unmap _ => [.segmentIdOutOfRange, .segmentUnmapped, .unmapSegmentZero]
  | .output _ => [.outputOutOfRange]
  | .input _ => []
  | .loadp _ _ => [.segmentIdOutOfRange, .segmentUnmapped, .resourceExhausted]
  | .loadv _ _ => []
  | .illegal14 => [.illegalOpcode]
  | .illegal15 => [.illegalOpcode]

end Sys2Proof.Machine
end

