-- ==== Sys2Proof/Machine/Arith.lean ====
section
/-! DEFINITION. Arithmetic and logic (42_arithmetic_logic.md): unsigned values, exact results narrowed to 32 bits (R168). -/

namespace Sys2Proof.Machine

/-- `(p + q) mod 2^32` (R155). -/
def addWord (p q : Word) : Word := BitVec.ofNat 32 (p.toNat + q.toNat)

/-- `(p * q) mod 2^32` (R158). -/
def mulWord (p q : Word) : Word := BitVec.ofNat 32 (p.toNat * q.toNat)

/-- `p // q`, unsigned (R161). Reached only with `q != 0`. -/
def divWord (p q : Word) : Word := BitVec.ofNat 32 (p.toNat / q.toNat)

/-- `~(p & q)` on 32 bits (R165). -/
def nandWord (p q : Word) : Word := ~~~(p &&& q)

/-- ADD (R155). -/
def execAdd (a b c : Reg) (s : State) : Result := .next (s.setReg a (s.binary addWord b c))

/-- MUL (R158). -/
def execMul (a b c : Reg) (s : State) : Result := .next (s.setReg a (s.binary mulWord b c))

/-- DIV (R161), with the fault of R162. -/
def execDiv (a b c : Reg) (s : State) : Result :=
  .next (s.conclude (checked (divisorCheck (s.reg c)) (.ok (s.setReg a (s.binary divWord b c)))))

/-- NAND (R165). -/
def execNand (a b c : Reg) (s : State) : Result := .next (s.setReg a (s.binary nandWord b c))

end Sys2Proof.Machine
end

