-- ==== Sys2Proof/Machine/Cmov.lean ====
section
/-! DEFINITION. Conditional move (40_cmov.md). Every meaning runs on the state after the fetch, `pc` already incremented. -/

namespace Sys2Proof.Machine

/-- CMOV: if `x[c] != 0` then `x[a] <- x[b]` (R140). -/
def execCmov (a b c : Reg) (s : State) : Result :=
  .next (if condHolds (s.reg c) then s.setReg a (s.reg b) else s)

end Sys2Proof.Machine
end

