-- ==== Sys2Proof/Machine/Halt.lean ====
section
/-! DEFINITION. HALT (43_halt.md). -/

namespace Sys2Proof.Machine

/-- HALT: `STATUS <- HALTED`, `STOP_REASON <- HALT_INSTRUCTION` (R170). -/
def execHalt (s : State) : Result := .next (s.stopRun .haltInstruction)

end Sys2Proof.Machine
end

