-- ==== Sys2Proof/Machine/Illegal.lean ====
section
/-! DEFINITION. The illegal opcodes 14 and 15 (30_encoding.md rule R108, 60_exceptions.md rule R224). -/

namespace Sys2Proof.Machine

/-- Opcode 14: `raise Fault(ILLEGAL_OPCODE)` (R108). -/
def execIllegal14 (s : State) : Result := .next (s.raiseFault .illegalOpcode)

/-- Opcode 15: `raise Fault(ILLEGAL_OPCODE)` (R108). -/
def execIllegal15 (s : State) : Result := .next (s.raiseFault .illegalOpcode)

end Sys2Proof.Machine
end

