-- ==== Sys2Proof/Machine/Io.lean ====
section
/-! DEFINITION. Byte output and input (45_io.md). -/

namespace Sys2Proof.Machine

/-- OUTPUT: one byte, or the fault of R191 (R190); it waits until the device takes the byte (R196). -/
def execOutput (c : Reg) (s : State) : Result :=
  .next (s.conclude (checked (byteRangeCheck (s.reg c)) (.ok (s.tryIo (.output (lowByte (s.reg c)))))))

/-- INPUT: the next byte or end-of-input (R194); it waits until the device answers (R196). -/
def execInput (c : Reg) (s : State) : Result := .next (s.tryIo (.input c))

end Sys2Proof.Machine
end

