-- ==== Sys2Proof/Machine/Loadp.lean ====
section
/-! DEFINITION. Load program, the only control transfer (46_loadp.md). -/

namespace Sys2Proof.Machine

/-- LOADP: if `x[b] != 0` then `DuplicateInto0(x[b])`, with the faults of R201; `pc <- x[c]` (R200). -/
def execLoadp (b c : Reg) (s : State) : Result :=
  .next (s.conclude
    (if s.reg b = 0#32 then .ok (s.setPc (s.reg c).toNat)
     else checked (s.segCheck (s.reg b)) ((s.duplicateInto0 (s.reg b)).map fun t => t.setPc (s.reg c).toNat)))

end Sys2Proof.Machine
end

