-- ==== Sys2Proof/Machine/Loadv.lean ====
section
/-! DEFINITION. Load value, the immediate load (47_loadv.md). -/

namespace Sys2Proof.Machine

/-- LOADV: `x[a] <- zext_32(imm)` (R210). -/
def execLoadv (a : Reg) (imm : Nat) (s : State) : Result := .next (s.setReg a (immOperand imm))

end Sys2Proof.Machine
end

