-- ==== Sys2Proof/Machine/MapUnmap.lean ====
section
/-! DEFINITION. Segment allocation (44_map_unmap.md). -/

namespace Sys2Proof.Machine

/-- MAP: `x[b] <- Allocate(x[c])`, with the fault of R177 (R175). -/
def execMap (b c : Reg) (s : State) : Result :=
  .next (s.conclude ((s.allocate (s.reg c).toNat).map fun r => r.2.setReg b r.1))

/-- UNMAP: `SegCheck(x[c])` (R183), the check for id 0 (R184), `Release(x[c])` (R181). -/
def execUnmap (c : Reg) (s : State) : Result :=
  .next (s.conclude (checked (s.segCheck (s.reg c)) (checked (programIdCheck (s.reg c)) (.ok (s.release (s.reg c))))))

end Sys2Proof.Machine
end

