-- ==== Sys2Proof/Machine/SegmentAccess.lean ====
section
/-! DEFINITION. Segmented load and store (41_segment_access.md). -/

namespace Sys2Proof.Machine

/-- SLOAD: `x[a] <- MemRead((x[b], x[c]), 32)`, with the faults of R146 (R145). -/
def execSload (a b c : Reg) (s : State) : Result :=
  .next (s.conclude ((s.load (s.address b c)).map (s.setReg a)))

/-- SSTORE: `MemWrite((x[a], x[b]), 32, x[c])`, with the faults of R151 (R150). -/
def execSstore (a b c : Reg) (s : State) : Result :=
  .next (s.conclude (s.store (s.address a b) (s.reg c)))

end Sys2Proof.Machine
end

