-- ==== Sys2Proof/Machine/Dispatch.lean ====
section
/-! DEFINITION. `Execute` (10_state.md rule R30): one arm per instruction, on the state after the fetch. -/

namespace Sys2Proof.Machine

def exec (i : Instr) (s : State) : Host.Outcome State Fault Refusal :=
  match i with
  | .cmov a b c => Sys2Proof.Machine.execCmov a b c s
  | .sload a b c => Sys2Proof.Machine.execSload a b c s
  | .sstore a b c => Sys2Proof.Machine.execSstore a b c s
  | .add a b c => Sys2Proof.Machine.execAdd a b c s
  | .mul a b c => Sys2Proof.Machine.execMul a b c s
  | .div a b c => Sys2Proof.Machine.execDiv a b c s
  | .nand a b c => Sys2Proof.Machine.execNand a b c s
  | .halt => Sys2Proof.Machine.execHalt s
  | .map b c => Sys2Proof.Machine.execMap b c s
  | .unmap c => Sys2Proof.Machine.execUnmap c s
  | .output c => Sys2Proof.Machine.execOutput c s
  | .input c => Sys2Proof.Machine.execInput c s
  | .loadp b c => Sys2Proof.Machine.execLoadp b c s
  | .loadv a imm => Sys2Proof.Machine.execLoadv a imm s
  | .illegal14 => Sys2Proof.Machine.execIllegal14 s
  | .illegal15 => Sys2Proof.Machine.execIllegal15 s

end Sys2Proof.Machine
end

