-- ==== Sys2Proof/Machine/Step.lean ====
section
/-! DEFINITION. One step of the machine (10_state.md rule R30), and the host's way to place one instruction. -/

namespace Sys2Proof.Machine

/-- `Step` (R30): the sequencer, then `Decode` and `Execute` of the word it fetched. -/
def step (s : State) : Host.Outcome State Fault Refusal :=
  match s.sequence with
  | .ended t => .next t
  | .word w t => exec (decode w) t

/-- The state with one instruction word where the next step fetches (log entry 9). -/
def State.withFetchWord (s : State) (nbits w : Nat) : State := s.plant (tableWord nbits w)

end Sys2Proof.Machine
end

