-- ==== Sys2Proof/Machine/Run.lean ====
section
/-! DEFINITION. Runs (70_reset_and_hazards.md rules R260, R268, R269): the core is reset with an image and steps, and
before each step the two devices do what they do. -/

namespace Sys2Proof.Machine

/-- What the two devices do during a run: before step `k` (counting from 0) they make the moves `env k`, in order. They may
take their time, deliver bytes and end the stream at any point (R269), and never answer (R268); the input stream is a
parameter of the run and no state (45_io.md rule R195). -/
abbrev Environment := Nat → List DeviceMove

/-- The devices do nothing. -/
def Environment.idle : Environment := fun _ => []

/-- The input device has supplied these events before the first step and answers nothing after them; with no events it never
answers. -/
def Environment.stream (events : List InEvent) : Environment
  | 0 => .silent true :: events.map .supplies
  | _ + 1 => []

/-- The state a step answers; every step answers one (log entry 1). -/
def State.stepped (s : State) : State :=
  match step s with
  | .next t => t
  | .fault _ => s
  | .refused _ => s

/-- `n` steps with the devices doing nothing; a terminal state stays as it is. -/
def State.after (s : State) : Nat → State
  | 0 => s
  | n + 1 => s.stepped.after n

/-- `n` steps with the devices making the moves of `env`. -/
def State.runIn (s : State) (env : Environment) : Nat → State
  | 0 => s
  | n + 1 => ((s.runIn env n).devices (env n)).stepped

/-- The state of the run of an image after `n` steps; none where the loader refuses the image, and no run takes place
(R261). -/
def runState (cfg : Config) (image : List Byte) (env : Environment) (n : Nat) : Option State :=
  (State.boot cfg image).map fun s => s.runIn env n

/-- `run(program_bytes) -> exit_status` (R268): what it has returned within `n` steps; none where the loader refuses the image
or STATUS is still RUNNING. -/
def runImage (cfg : Config) (image : List Byte) (env : Environment) (n : Nat) : Option Nat :=
  (runState cfg image env n).bind State.exitStatus

end Sys2Proof.Machine
end

