-- ==== Sys2Proof/Safety.lean ====
section
/-! DEFINITION. The words claims about runs are made in: the invariant, the ends of a run, the run itself. -/

namespace Sys2Proof.Machine

/-- The state invariant: R44 (i) to (iv), `1 <= TLEN <= NSEG_MAX` (R41), every segment canonical and of legal length
(R43), nothing kept at an unmapped position (R48), STOP_REASON and CAUSE as R37 and R38 tie them to STATUS, waiting
only while RUNNING (R196), parameters in their ranges (R11), and `pc` at most 2^32 - 1 whatever PCW is (R28, R34). -/
structure State.Inv (s : State) : Prop where
  cfg_wf : s.cfg.wf = true
  tlen_pos : 1 ≤ s.tlen
  tlen_le : s.tlen ≤ s.cfg.nsegMax
  fl_range : ∀ id ∈ s.freeList, 1 ≤ id.toNat ∧ id.toNat < s.tlen
  fl_nodup : s.freeList.Nodup
  mem_wf : Memory.wf s.segs = true
  fl_dropped : ∀ id ∈ s.freeList, s.seg id = Segment.empty
  stop_reason : s.stopReason = .noReason ↔ s.status ≠ .halted
  fault_cause : s.cause = .noCause ↔ s.status ≠ .faulted
  wait_running : s.wait ≠ none → s.status = .running
  pc_lt : s.pc < 2 ^ 32

/-- The mapped words do not pass MEM_WORDS_MAX (R49). -/
def State.WithinMemory (s : State) : Prop := ∀ m, s.cfg.memWordsMax = some m → s.mappedWords ≤ m

/-- Every address reads in `t` as it read in `s`: the word, or the fault of reading it (20_memory.md rule R66). -/
def State.ReadsAs (t s : State) : Prop := ∀ p : Address, t.load p = s.load p

/-- Every address but those of segment `id` reads in `t` as it read in `s`. -/
def State.ReadsAsOutside (t s : State) (id : Word) : Prop := ∀ p : Address, p.id ≠ id → t.load p = s.load p

/-- `a` is the only register that can differ between `s` and `t`, and nothing but the register file differs. -/
def State.OnlyRegister (a : Reg) (s t : State) : Prop :=
  (∀ r, r ≠ a → t.reg r = s.reg r) ∧ t = { s with regs := t.regs } ∧ t.ReadsAs s

/-- A run is over exactly when STATUS is HALTED or FAULTED (70_reset_and_hazards.md rule R270). -/
def State.over (s : State) : Bool := decide (s.status ≠ .running)

/-- It is successful exactly when STATUS is HALTED (R270). -/
def State.successful (s : State) : Bool := decide (s.status = .halted)

/-- The states a machine can come to (70_reset_and_hazards.md rules R260 and R269): reset with an image, then steps, and
between steps whatever the two devices do; they are the states of runs (`reachable_iff_run`). -/
inductive Reachable : State → Prop where
  | boot (cfg : Config) (image : List Byte) (s : State) : cfg.wf = true → State.boot cfg image = some s → Reachable s
  | step (s t : State) : Reachable s → step s = .next t → Reachable t
  | device (s : State) (m : DeviceMove) : Reachable s → Reachable (s.deviceMove m)

/-- The run of the image returns this exit status (R268). -/
def Returns (cfg : Config) (image : List Byte) (env : Environment) (exitStatus : Nat) : Prop :=
  ∃ n, runImage cfg image env n = some exitStatus

/-- The image is loaded and its run never returns: STATUS is RUNNING after any number of steps (R268: there is "no timeout
or cancellation"). -/
def NeverReturns (cfg : Config) (image : List Byte) (env : Environment) : Prop :=
  ∀ n, ∃ s, runState cfg image env n = some s ∧ s.status = .running

end Sys2Proof.Machine
end

