-- ==== Sys2Proof/Certificates/Slice0/Obligations.lean ====
section
/-! DEFINITION. The statements for the provers. Each docstring names the rules of spec/ it formalises. `exec` runs on the
state after the fetch (log entry 2), so "`pc` stays" in a statement about `exec` is R32's "stays at the fetch-incremented
value". A fatal fault is a next state (log entry 1). -/

open Sys2Proof Sys2Proof.Machine

/-! ### Encoding -/

/-- Decode and encode agree, on words and on byte sequences, for every well-formed instruction; the assembler refuses the
others, those whose immediate does not fit (R132, R104, R77). -/
def Obligations.DecodeOfEncodeIsIdentity : Prop :=
  (∀ (i : Instr) (rest : List Byte), i.wf = true →
    decode (encode i) = i ∧ decodeBytes (encodeBytes i ++ rest) = .ok (i, rest) ∧ assemble i = some (encode i)) ∧
  (∀ (a : Reg) (imm : Nat), 2 ^ 25 ≤ imm → assemble (.loadv a imm) = none)

/-- Words written out from the spec's encodings decode to the instructions they stand for (95_test_vectors.md Part 2). -/
def Obligations.SpecWordsDecode : Prop :=
  decode 0x00000000#32 = .cmov 0 0 0 ∧ decode 0x30000053#32 = .add 1 2 3 ∧ decode 0x70ABCDEF#32 = .halt ∧
  decode 0xA00001F9#32 = .output 1 ∧ decode 0x8000000B#32 = .map 1 3 ∧ decode 0xC0000016#32 = .loadp 2 6 ∧
  decode 0xDFFFFFFF#32 = .loadv 7 0x1FFFFFF ∧ decode 0xD7000000#32 = .loadv 3 0x1000000 ∧
  decode 0x0000000D#32 = .cmov 0 1 5 ∧ decode 0xE0000000#32 = .illegal14 ∧ decode 0xFFFFFFFF#32 = .illegal15

/-- The decoder, opcode by opcode, in arithmetic on the word's value: which bits are the opcode, the register fields and
the immediate, and which instruction each opcode is (R104). -/
def Obligations.DecodeIsTheOpcodeMap : Prop :=
  ∀ w : Word,
    let op := w.toNat / 2 ^ 28
    let a := Fin.ofNat 8 (w.toNat / 2 ^ 6)
    let b := Fin.ofNat 8 (w.toNat / 2 ^ 3)
    let c := Fin.ofNat 8 w.toNat
    (op = 0 → decode w = .cmov a b c) ∧ (op = 1 → decode w = .sload a b c) ∧ (op = 2 → decode w = .sstore a b c) ∧
    (op = 3 → decode w = .add a b c) ∧ (op = 4 → decode w = .mul a b c) ∧ (op = 5 → decode w = .div a b c) ∧
    (op = 6 → decode w = .nand a b c) ∧ (op = 7 → decode w = .halt) ∧ (op = 8 → decode w = .map b c) ∧
    (op = 9 → decode w = .unmap c) ∧ (op = 10 → decode w = .output c) ∧ (op = 11 → decode w = .input c) ∧
    (op = 12 → decode w = .loadp b c) ∧
    (op = 13 → decode w = .loadv (Fin.ofNat 8 (w.toNat / 2 ^ 25)) (w.toNat % 2 ^ 25)) ∧
    (op = 14 → decode w = .illegal14) ∧ (op = 15 → decode w = .illegal15) ∧ op < 16

/-- Bits 27:9 of the three-register format and the register fields an instruction does not use are ignored, the opcode
alone selects the instruction, and the canonical word has zeros there (R109). -/
def Obligations.UnusedBitsAreIgnored : Prop :=
  (∀ w w' : Word, opField w ≠ 13#4 → w &&& 0xF00001FF#32 = w' &&& 0xF00001FF#32 → decode w = decode w') ∧
  (∀ w : Word, opField w = 7#4 → decode w = .halt) ∧
  (∀ w w' : Word, opField w = 8#4 ∨ opField w = 12#4 → w &&& 0xF000003F#32 = w' &&& 0xF000003F#32 →
    decode w = decode w') ∧
  (∀ w w' : Word, opField w = 9#4 ∨ opField w = 10#4 ∨ opField w = 11#4 → w &&& 0xF0000007#32 = w' &&& 0xF0000007#32 →
    decode w = decode w') ∧
  (∀ w w' : Word, opField w = opField w' → (decode w).mnemonic = (decode w').mnemonic) ∧
  (∀ i : Instr, (∀ a imm, i ≠ .loadv a imm) → encode i &&& 0x0FFFFE00#32 = 0#32)

/-- The immediate format is opcode 13's alone, its fields are bits 27:25 and 24:0, and no bit of the word is unused: the
word is read back whole (R102). -/
def Obligations.ImmediateFormatFillsTheWord : Prop :=
  (∀ w : Word, opField w = 13#4 →
    decode w = .loadv (Fin.ofNat 8 (w.toNat / 2 ^ 25)) (w.toNat % 2 ^ 25) ∧ encode (decode w) = w) ∧
  (∀ (w : Word) (a : Reg) (imm : Nat), decode w = .loadv a imm → opField w = 13#4 ∧ imm < 2 ^ 25)

/-- The Bit Codec: `get` is the field, `set` replaces the field and leaves every other bit, and the decoder of R104 is
`get` on the zero-extended word with the pairs of R101 and R102 (R120). -/
def Obligations.CodecGetAndSetContract : Prop :=
  (∀ (word : BitVec 64) (f : CodecField) (i : Nat), i < 64 →
    (codecGet word f).getLsbD i = (decide (i < f.width) && word.getLsbD (f.offset + i))) ∧
  (∀ (word word' v : BitVec 64) (f : CodecField), codecSet word f v = .ok word' → ∀ i, i < 64 →
    word'.getLsbD i =
      if f.offset ≤ i ∧ i < f.offset + f.width then v.getLsbD (i - f.offset) else word.getLsbD i) ∧
  (∀ w : Word,
    (opField w).toNat = (codecGet (w.setWidth 64) opCodec).toNat ∧
    (aField w).val = (codecGet (w.setWidth 64) aCodec).toNat ∧
    (bField w).val = (codecGet (w.setWidth 64) bCodec).toNat ∧
    (cField w).val = (codecGet (w.setWidth 64) cCodec).toNat ∧
    (aImmField w).val = (codecGet (w.setWidth 64) aImmCodec).toNat ∧
    (immField w).toNat = (codecGet (w.setWidth 64) immCodec).toNat)

/-- What is set is got back, at every width of the contract, 64 included (R124). -/
def Obligations.CodecRoundTrip : Prop :=
  ∀ (word v : BitVec 64) (f : CodecField), v.toNat < 2 ^ f.width →
    ∃ word', codecSet word f v = .ok word' ∧ codecGet word' f = v

/-- `set` overflows exactly when the value does not fit; the loader's four insertions never do, and give the big-endian
word (R122, R77). -/
def Obligations.CodecOverflowIsUnreachableInTheLoader : Prop :=
  (∀ (word v : BitVec 64) (f : CodecField),
    codecSet word f v = .error .overflow ↔ (2 ^ f.width ≤ v.toNat ∧ f.width < 64)) ∧
  (∀ b0 b1 b2 b3 : Byte, codecAssemble b0 b1 b2 b3 = .ok ((wordOfBytes b0 b1 b2 b3).setWidth 64))

/-! ### Reset and image load -/

/-- The image's words: one for each group of four bytes, the first byte in bits 31:24, a missing trailing byte 0 (R263,
R77). -/
def Obligations.ImageIsBigEndianAndZeroFilled : Prop :=
  ∀ image : List Byte,
    (imageWords image).length = (image.length + 3) / 4 ∧
    ∀ i, i < (image.length + 3) / 4 →
      ((imageWords image).getD i 0#32).toNat =
        (image.getD (4 * i) 0#8).toNat * 2 ^ 24 + (image.getD (4 * i + 1) 0#8).toNat * 2 ^ 16
          + (image.getD (4 * i + 2) 0#8).toNat * 2 ^ 8 + (image.getD (4 * i + 3) 0#8).toNat

/-- The reset state with an image, all of it, and the loader's refusal of an image that is too long (R262, R261). -/
def Obligations.BootGivesTheResetState : Prop :=
  ∀ (cfg : Config) (image : List Byte), cfg.wf = true →
    ((imageWords image).length ≤ cfg.imageWordsMax →
      ∃ s, State.boot cfg image = some s ∧ (∀ r, s.reg r = 0#32) ∧ s.pc = 0 ∧ s.tlen = 1 ∧
        s.segLen 0#32 = (image.length + 3) / 4 ∧
        (∀ off : Nat, off < (image.length + 3) / 4 →
          s.memRead 0#32 off = .ok ((imageWords image).getD off 0#32)) ∧
        s.freeList = [] ∧ s.out = [] ∧ s.input.answered = 0 ∧ s.input.ended = false ∧
        s.status = .running ∧ s.stopReason = .noReason ∧ s.cause = .noCause ∧ s.cfg = cfg) ∧
    (cfg.imageWordsMax < (imageWords image).length → State.boot cfg image = none)

/-- What reset leaves in the registers, the program counter and the status (R22, R29). -/
def Obligations.ResetClearsRegistersAndPc : Prop :=
  (∀ r, State.reset.reg r = 0#32) ∧ State.reset.pc = 0 ∧ State.reset.status = .running ∧
    State.reset.stopReason = .noReason ∧ State.reset.cause = .noCause ∧ State.reset.tlen = 1 ∧
    State.reset.freeList = [] ∧ State.reset.out = []

/-- The invariant holds at `State.reset`. -/
def Obligations.ResetMeetsTheInvariant : Prop := State.reset.Inv

/-- The invariant holds of every boot with parameters in their ranges. -/
def Obligations.BootMeetsTheInvariant : Prop :=
  ∀ (cfg : Config) (image : List Byte) (s : State), cfg.wf = true → State.boot cfg image = some s → s.Inv

/-! ### Invariants every step keeps -/

/-- Every step keeps the invariant: free-list ids distinct and in `1 .. TLEN-1`, segments canonical and of legal length,
CAUSE and STOP_REASON tied to STATUS, `pc` at most 2^32 - 1 whatever PCW is (R44, R41, R43, R37, R38, R28). -/
def Obligations.StepKeepsTheInvariant : Prop :=
  ∀ s t : State, s.Inv → step s = .next t → t.Inv

/-- What mapped means, the two ways not to be mapped, and the four invariants of R44, in every reachable state. -/
def Obligations.ReachableStatesMeetR44 : Prop :=
  ∀ s : State, Reachable s →
    (∀ id : Word, (s.mapped id = true ↔ id.toNat < s.tlen ∧ id ∉ s.freeList) ∧
      (s.segCheck id = some .segmentIdOutOfRange ↔ s.tlen ≤ id.toNat) ∧
      (s.segCheck id = some .segmentUnmapped ↔ id.toNat < s.tlen ∧ id ∈ s.freeList)) ∧
    (∀ id ∈ s.freeList, 1 ≤ id.toNat ∧ id.toNat < s.tlen) ∧ s.freeList.Nodup ∧ s.mapped 0#32 = true ∧
      s.freeList.length ≤ s.tlen - 1

/-- No step takes the mapped words past MEM_WORDS_MAX (R49). -/
def Obligations.StepStaysWithinMemory : Prop :=
  ∀ s t : State, s.Inv → s.WithinMemory → step s = .next t → t.WithinMemory

/-- `TLEN` never shrinks, grows by at most one, and grows only by a MAP that finds the free-list empty (R41). -/
def Obligations.TableGrowsOnlyByMap : Prop :=
  ∀ s t : State, s.Inv → step s = .next t →
    t.tlen = s.tlen ∨
      (t.tlen = s.tlen + 1 ∧ s.freeList = [] ∧ ∃ w b c, s.memRead 0#32 s.pc = .ok w ∧ decode w = .map b c)

/-- The length of a segment that stays mapped does not change; segment 0 alone is replaced, by LOADP (R43, R45). -/
def Obligations.MappedLengthsNeverChange : Prop :=
  ∀ (s t : State) (id : Word), s.Inv → step s = .next t → s.mapped id = true → t.mapped id = true →
    t.segLen id = s.segLen id ∨
      (id = 0#32 ∧ ∃ w b c, s.memRead 0#32 s.pc = .ok w ∧ decode w = .loadp b c)

/-- Segments that read alike are equal data: the canonical form, the model's representation (log entry 3), is one form. -/
def Obligations.CanonicalSegmentsAreEqual : Prop :=
  ∀ g h : Segment, g.wf = true → h.wf = true → g.len = h.len → (∀ off, off < g.len → g.word off = h.word off) → g = h

/-! ### The step -/

/-- A step runs the decoded instruction: the word at `(0, pc)`, on the state with `pc` incremented, which does not wrap,
neither at 2^32 nor at the width PCW; inside the program of a state that meets the invariant there is such a word (R30, R31, R34). -/
def Obligations.StepRunsTheFetchedInstruction : Prop :=
  (∀ (s : State) (w : Word), s.status = .running → s.wait = none → s.memRead 0#32 s.pc = .ok w →
    step s = exec (decode w) { s with pc := (s.pc + 1) % 2 ^ s.cfg.pcw } ∧ (decode w).wf = true ∧
      (s.Inv → (s.pc + 1) % 2 ^ s.cfg.pcw = s.pc + 1 ∧ s.pc + 1 < 2 ^ 32)) ∧
  (∀ s : State, s.Inv → s.pc < s.segLen 0#32 → s.memRead 0#32 s.pc = .ok ((s.seg 0#32).word s.pc))

/-- A step that begins at the end of segment 0 stops normally; one that begins beyond it faults or stops, as PC_PAST_END
says (R35). -/
def Obligations.EndOfProgramStopsTheRun : Prop :=
  ∀ s : State, s.status = .running → s.wait = none →
    (s.pc = s.segLen 0#32 →
      ∃ t, step s = .next t ∧ t = { s with status := .halted, stopReason := .endOfProgram } ∧ t.exitStatus = some 0) ∧
    (s.segLen 0#32 < s.pc → s.cfg.pcPastEnd = .fault →
      step s = .next { s with status := .faulted, cause := .fetchOutOfRange }) ∧
    (s.segLen 0#32 < s.pc → s.cfg.pcPastEnd = .stop →
      step s = .next { s with status := .halted, stopReason := .endOfProgram })

/-- No instruction leaves HALTED or FAULTED: however many steps are asked for, the state is the same (R36, in the reading
of log entry 1). -/
def Obligations.TerminalStatesNeverChange : Prop :=
  ∀ (s : State) (n : Nat), s.status ≠ .running → Host.Core.run core n s = .next s ∧ s.after n = s

/-- Every step and every instruction, in every state, answers a state: nothing is undefined, nothing is refused (R246).
Two parts are the model's choices, no words of R246. A step also answers a state while the machine waits for a device:
R246 excepts the wait of R196, and R196 has the step not enabled there; the model's step then answers the waiting state
(log entry 7). And a step answers a state from a terminal state, where R36 has no step: the state itself (log entry 1;
a fatal fault, too, is a next state there). -/
def Obligations.EveryStepAnswersAState : Prop :=
  (∀ s : State, ∃ t, step s = .next t) ∧ ∀ (i : Instr) (s : State), ∃ t, exec i s = .next t

/-- Every instruction but LOADP leaves `pc` at its fetch-incremented value; LOADP sets it to `x[c]`, of which the
counter holds all 32 bits, unless it faults (R32). -/
def Obligations.OnlyLoadpSetsThePc : Prop :=
  ∀ (i : Instr) (s t : State), exec i s = .next t →
    ((∀ b c, i ≠ .loadp b c) → t.pc = s.pc) ∧
    (∀ b c, i = .loadp b c →
      (t.pc = (s.reg c).toNat % 2 ^ s.cfg.pcw ∧ (s.cfg.wf = true → t.pc = (s.reg c).toNat)) ∨
      t = { s with status := .faulted, cause := t.cause })

/-- A placed instruction is the one the next step runs (log entry 9: the model's own operation). -/
def Obligations.PlacedWordIsRunNext : Prop :=
  ∀ (s : State) (w : Nat), w < 2 ^ 32 → Memory.wf s.segs = true →
    step (s.withFetchWord 32 w) =
      exec (decode (BitVec.ofNat 32 w))
        { s.withFetchWord 32 w with pc := ((s.withFetchWord 32 w).pc + 1) % 2 ^ s.cfg.pcw }

/-- `EXIT_STATUS` is a function of STATUS (R39). -/
def Obligations.ExitStatusFollowsStatus : Prop :=
  ∀ s : State,
    (s.status = .running → s.exitStatus = none) ∧ (s.status = .halted → s.exitStatus = some 0) ∧
    (s.status = .faulted → s.exitStatus = some s.cfg.exitFault) ∧ (s.Inv → s.cfg.exitFault ≠ 0)

/-- A register changes only by the instruction the step fetched, and then only its destination, or by the INPUT the
machine waits in (R23). -/
def Obligations.OnlyTheDestinationRegisterChanges : Prop :=
  ∀ (s t : State) (r : Reg), step s = .next t → t.reg r ≠ s.reg r →
    s.status = .running ∧
      (s.wait = some (.input r) ∨
        (s.wait = none ∧ ∃ w, s.memRead 0#32 s.pc = .ok w ∧ destReg (decode w) = some r))

/-- The segment table changes only by SSTORE, MAP, UNMAP and LOADP (R62). -/
def Obligations.OnlyFourInstructionsChangeTheTable : Prop :=
  ∀ s t : State, step s = .next t → (t.segs ≠ s.segs ∨ t.freeList ≠ s.freeList) →
    ∃ w, s.memRead 0#32 s.pc = .ok w ∧
      ((∃ a b c, decode w = .sstore a b c) ∨ (∃ b c, decode w = .map b c) ∨ (∃ c, decode w = .unmap c) ∨
        (∃ b c, decode w = .loadp b c))

/-- `OUT` only grows, by at most one byte a step (R50, R192). -/
def Obligations.OutputOnlyGrowsByOneByte : Prop :=
  ∀ s t : State, step s = .next t → t.out = s.out ∨ ∃ b : Byte, t.out = s.out ++ [b]

/-- A step that runs no INPUT neither reads nor changes the input stream: with any other stream it does the same (R195). -/
def Obligations.StepsWithoutInputIgnoreTheStream : Prop :=
  ∀ (s : State) (p : InPort), (∀ c, s.wait ≠ some (.input c)) →
    (∀ w c, s.memRead 0#32 s.pc = .ok w → decode w ≠ .input c) →
    ∃ t, step s = .next t ∧ t.input = s.input ∧ step { s with input := p } = .next { t with input := p }

/-- The fetch sees a store into segment 0 at once, and a program that LOADP loads (R84). -/
def Obligations.FetchSeesStoresAndLoadsAtOnce : Prop :=
  (∀ (s : State) (a b c : Reg), s.Inv → s.status = .running → s.wait = none → s.reg a = 0#32 →
    (s.reg b).toNat = s.pc → s.pc < s.segLen 0#32 →
    ∃ t, exec (.sstore a b c) s = .next t ∧
      step t = exec (decode (s.reg c)) { t with pc := s.pc + 1 }) ∧
  (∀ (s t : State) (b c : Reg), s.Inv → s.status = .running → s.wait = none → s.reg b ≠ 0#32 →
    exec (.loadp b c) s = .next t → t.status = .running → (s.reg c).toNat < s.segLen (s.reg b) →
    step t = exec (decode ((s.seg (s.reg b)).word (s.reg c).toNat)) { t with pc := (s.reg c).toNat + 1 })

/-! ### Fatal faults -/

/-- Faults are precise, and an instruction raises only the causes R234 lists for it (R223, R234). -/
def Obligations.FaultsArePrecise : Prop :=
  ∀ (i : Instr) (s t : State), s.status = .running → exec i s = .next t → t.status = .faulted →
    t = { s with status := .faulted, cause := t.cause } ∧ t.cause ∈ causesOf i

/-- The codes of STATUS, STOP_REASON and CAUSE (R36, R37, R221). -/
def Obligations.StatusReasonAndCauseCodes : Prop :=
  [Status.running, .halted, .faulted].map Status.code = [0, 1, 2] ∧
  [StopReason.noReason, .haltInstruction, .endOfProgram].map StopReason.code = [0, 1, 2] ∧
  [Cause.noCause, .illegalOpcode, .divideByZero, .segmentIdOutOfRange, .segmentUnmapped, .offsetOutOfRange,
    .outputOutOfRange, .fetchOutOfRange, .unmapSegmentZero, .resourceExhausted, .registerOutOfRange,
    .codecOverflow].map Cause.code = List.range 12

/-- Opcodes 14 and 15 raise ILLEGAL_OPCODE, whatever the other bits are, and no other opcode raises it: the fault depends on
bits 31:28 alone (R224). -/
def Obligations.IllegalOpcodesFault : Prop :=
  (∀ s : State, exec .illegal14 s = .next { s with status := .faulted, cause := .illegalOpcode } ∧
    exec .illegal15 s = .next { s with status := .faulted, cause := .illegalOpcode }) ∧
  (∀ (w : Word) (s : State), 14 ≤ w.toNat / 2 ^ 28 →
    exec (decode w) s = .next { s with status := .faulted, cause := .illegalOpcode }) ∧
  (∀ (w : Word) (s t : State), w.toNat / 2 ^ 28 < 14 → s.status = .running → exec (decode w) s = .next t →
    t.status = .faulted → t.cause ≠ .illegalOpcode)

/-! ### CMOV, arithmetic, LOADV, HALT -/

/-- CMOV (R140). -/
def Obligations.CmovMovesWhenConditionIsNonzero : Prop :=
  ∀ (a b c : Reg) (s : State),
    ∃ t, exec (.cmov a b c) s = .next t ∧ (s.reg c ≠ 0#32 → t.reg a = s.reg b) ∧ (s.reg c = 0#32 → t = s) ∧
      s.OnlyRegister a t

/-- ADD (R155). -/
def Obligations.AddIsModuloTwoTo32 : Prop :=
  ∀ (a b c : Reg) (s : State),
    ∃ t, exec (.add a b c) s = .next t ∧
      (t.reg a).toNat = ((s.reg b).toNat + (s.reg c).toNat) % 2 ^ 32 ∧ s.OnlyRegister a t

/-- MUL (R158). -/
def Obligations.MulIsModuloTwoTo32 : Prop :=
  ∀ (a b c : Reg) (s : State),
    ∃ t, exec (.mul a b c) s = .next t ∧
      (t.reg a).toNat = ((s.reg b).toNat * (s.reg c).toNat) % 2 ^ 32 ∧ s.OnlyRegister a t

/-- DIV: for a non-zero divisor the unique `q` with `q * x[c] <= x[b] < (q + 1) * x[c]`; a zero divisor is a fatal fault,
whatever the dividend, and the destination is not written (R161, R162). -/
def Obligations.DivIsUnsignedFloor : Prop :=
  ∀ (a b c : Reg) (s : State),
    (s.reg c ≠ 0#32 →
      ∃ t, exec (.div a b c) s = .next t ∧
        (t.reg a).toNat * (s.reg c).toNat ≤ (s.reg b).toNat ∧
        (s.reg b).toNat < ((t.reg a).toNat + 1) * (s.reg c).toNat ∧ s.OnlyRegister a t) ∧
    (s.reg c = 0#32 → exec (.div a b c) s = .next { s with status := .faulted, cause := .divideByZero })

/-- NAND, bit by bit (R165). -/
def Obligations.NandIsBitwise : Prop :=
  ∀ (a b c : Reg) (s : State),
    ∃ t, exec (.nand a b c) s = .next t ∧
      (∀ i, i < 32 → (t.reg a).getLsbD i = !((s.reg b).getLsbD i && (s.reg c).getLsbD i)) ∧ s.OnlyRegister a t

/-- LOADV: the immediate, zero-extended, in the register that bits 27:25 name; on the instruction and on the word it is read
from (R210). -/
def Obligations.LoadvZeroExtends : Prop :=
  (∀ (a : Reg) (imm : Nat) (s : State), (Instr.loadv a imm).wf = true →
    ∃ t, exec (.loadv a imm) s = .next t ∧ (t.reg a).toNat = imm ∧ s.OnlyRegister a t) ∧
  (∀ (w : Word) (s : State), w.toNat / 2 ^ 28 = 13 →
    ∃ t, exec (decode w) s = .next t ∧ (t.reg (Fin.ofNat 8 (w.toNat / 2 ^ 25))).toNat = w.toNat % 2 ^ 25 ∧
      s.OnlyRegister (Fin.ofNat 8 (w.toNat / 2 ^ 25)) t)

/-- HALT changes STATUS and STOP_REASON and nothing else, the run has succeeded, and no further instruction is fetched: the
next step answers the same state (R170; 95_test_vectors.md Part 6 property 8). -/
def Obligations.HaltStopsTheRun : Prop :=
  ∀ s : State, ∃ t, exec .halt s = .next t ∧ t = { s with status := .halted, stopReason := .haltInstruction } ∧
    t.exitStatus = some 0 ∧ t.successful = true ∧ t.ReadsAs s ∧ step t = .next t

/-! ### Segmented load and store -/

/-- SLOAD (R145). -/
def Obligations.SloadReadsTheWord : Prop :=
  ∀ (a b c : Reg) (s : State), s.mapped (s.reg b) = true → (s.reg c).toNat < s.segLen (s.reg b) →
    ∃ t, exec (.sload a b c) s = .next t ∧ t.reg a = (s.seg (s.reg b)).word (s.reg c).toNat ∧
      s.load (s.address b c) = .ok (t.reg a) ∧ s.OnlyRegister a t

/-- SLOAD's faults, in their order (R146). -/
def Obligations.SloadFaults : Prop :=
  ∀ (a b c : Reg) (s : State),
    (s.tlen ≤ (s.reg b).toNat →
      exec (.sload a b c) s = .next { s with status := .faulted, cause := .segmentIdOutOfRange }) ∧
    ((s.reg b).toNat < s.tlen → s.reg b ∈ s.freeList →
      exec (.sload a b c) s = .next { s with status := .faulted, cause := .segmentUnmapped }) ∧
    (s.mapped (s.reg b) = true → s.segLen (s.reg b) ≤ (s.reg c).toNat →
      exec (.sload a b c) s = .next { s with status := .faulted, cause := .offsetOutOfRange })

/-- SSTORE: the word at `(x[a], x[b])` becomes `x[c]`, every other address reads as before, no length and nothing outside
memory changes (R150). -/
def Obligations.SstoreWritesOneWord : Prop :=
  ∀ (a b c : Reg) (s : State), Memory.wf s.segs = true → s.mapped (s.reg a) = true →
    (s.reg b).toNat < s.segLen (s.reg a) →
    ∃ t, exec (.sstore a b c) s = .next t ∧ t.load (s.address a b) = .ok (s.reg c) ∧
      (∀ p : Address, p ≠ s.address a b → t.load p = s.load p) ∧ (∀ id, t.segLen id = s.segLen id) ∧
      t.tlen = s.tlen ∧ t = { s with segs := t.segs }

/-- SSTORE's faults, in their order (R151). -/
def Obligations.SstoreFaults : Prop :=
  ∀ (a b c : Reg) (s : State),
    (s.tlen ≤ (s.reg a).toNat →
      exec (.sstore a b c) s = .next { s with status := .faulted, cause := .segmentIdOutOfRange }) ∧
    ((s.reg a).toNat < s.tlen → s.reg a ∈ s.freeList →
      exec (.sstore a b c) s = .next { s with status := .faulted, cause := .segmentUnmapped }) ∧
    (s.mapped (s.reg a) = true → s.segLen (s.reg a) ≤ (s.reg b).toNat →
      exec (.sstore a b c) s = .next { s with status := .faulted, cause := .offsetOutOfRange })

/-! ### Allocation -/

/-- MAP within capacity: the id is the top of the free-list or, that being empty, the table length; the new segment has
`x[c]` words, all zero, is mapped and was not; every address of another id reads as before (R175, R69). -/
def Obligations.MapCreatesAZeroedSegment : Prop :=
  ∀ (b c : Reg) (s : State), s.Inv → (s.freeList = [] → s.tlen ≠ s.cfg.nsegMax) →
    (∀ m, s.cfg.memWordsMax = some m → s.mappedWords + (s.reg c).toNat ≤ m) →
    ∃ t id, exec (.map b c) s = .next t ∧ t.reg b = id ∧
      (∀ top rest, s.freeList = top :: rest → id = top ∧ t.freeList = rest ∧ t.tlen = s.tlen) ∧
      (s.freeList = [] → id.toNat = s.tlen ∧ t.freeList = [] ∧ t.tlen = s.tlen + 1) ∧
      id ≠ 0#32 ∧ s.mapped id = false ∧ t.mapped id = true ∧ t.segLen id = (s.reg c).toNat ∧
      (∀ off : Nat, off < (s.reg c).toNat → t.memRead id off = .ok 0#32) ∧
      t.ReadsAsOutside s id ∧ (∀ r, r ≠ b → t.reg r = s.reg r) ∧
      t = { s with regs := t.regs, segs := t.segs, freeList := t.freeList }

/-- MAP beyond capacity changes nothing and faults (R177). -/
def Obligations.MapBeyondCapacityFaults : Prop :=
  ∀ (b c : Reg) (s : State),
    (s.freeList = [] ∧ s.tlen = s.cfg.nsegMax ∨
      ∃ m, s.cfg.memWordsMax = some m ∧ m < s.mappedWords + (s.reg c).toNat) →
    exec (.map b c) s = .next { s with status := .faulted, cause := .resourceExhausted }

/-- UNMAP of a mapped id other than 0 pushes the id; a later use of it faults, by the check every instruction that names a
segment makes; every address of another id reads as before (R181). -/
def Obligations.UnmapReleasesTheSegment : Prop :=
  ∀ (c : Reg) (s : State), s.mapped (s.reg c) = true → s.reg c ≠ 0#32 →
    ∃ t, exec (.unmap c) s = .next t ∧ t.freeList = s.reg c :: s.freeList ∧ t.tlen = s.tlen ∧
      t.mapped (s.reg c) = false ∧ t.segCheck (s.reg c) = some .segmentUnmapped ∧
      (∀ off, t.memRead (s.reg c) off = .error .segmentUnmapped) ∧
      t.ReadsAsOutside s (s.reg c) ∧ t = { s with segs := t.segs, freeList := t.freeList }

/-- UNMAP's faults: an id that is not mapped, the double unmap among them (R183), and id 0 (R184). -/
def Obligations.UnmapFaults : Prop :=
  ∀ (c : Reg) (s : State),
    (s.tlen ≤ (s.reg c).toNat →
      exec (.unmap c) s = .next { s with status := .faulted, cause := .segmentIdOutOfRange }) ∧
    ((s.reg c).toNat < s.tlen → s.reg c ∈ s.freeList →
      exec (.unmap c) s = .next { s with status := .faulted, cause := .segmentUnmapped }) ∧
    (s.Inv → s.reg c = 0#32 →
      exec (.unmap c) s = .next { s with status := .faulted, cause := .unmapSegmentZero })

/-- Last released, first reused: a MAP after an UNMAP returns the same id, of the new length and zeroed, and the free-list
and the table length are as before the two (R176). -/
def Obligations.MapReusesTheReleasedId : Prop :=
  ∀ (b c d : Reg) (s : State), s.Inv → s.mapped (s.reg c) = true → s.reg c ≠ 0#32 →
    (∀ m, s.cfg.memWordsMax = some m → s.mappedWords + (s.reg d).toNat ≤ m) →
    ∃ t u, exec (.unmap c) s = .next t ∧ exec (.map b d) t = .next u ∧ u.reg b = s.reg c ∧
      u.tlen = s.tlen ∧ u.freeList = s.freeList ∧ u.segLen (s.reg c) = (s.reg d).toNat ∧
      ∀ off : Nat, off < (s.reg d).toNat → u.memRead (s.reg c) off = .ok 0#32

/-- The free-list is a stack: two UNMAPs and two MAPs give the two ids back, the last released first, and leave the
free-list and the table length as they were (R42, R176). -/
def Obligations.ReleasedIdsComeBackLastFirst : Prop :=
  ∀ (b1 b2 c1 c2 d1 d2 : Reg) (s : State), s.Inv → s.cfg.memWordsMax = none → s.mapped (s.reg c1) = true →
    s.mapped (s.reg c2) = true → s.reg c1 ≠ s.reg c2 → s.reg c1 ≠ 0#32 → s.reg c2 ≠ 0#32 →
    ∃ t1 t2 u1 u2, exec (.unmap c1) s = .next t1 ∧ exec (.unmap c2) t1 = .next t2 ∧
      exec (.map b1 d1) t2 = .next u1 ∧ exec (.map b2 d2) u1 = .next u2 ∧
      u1.reg b1 = s.reg c2 ∧ u2.reg b2 = s.reg c1 ∧ u2.freeList = s.freeList ∧ u2.tlen = s.tlen

/-! ### Byte input and output -/

/-- OUTPUT of a byte value to a device that takes it: one byte appended, nothing else changed (R190). -/
def Obligations.OutputAppendsOneByte : Prop :=
  ∀ (c : Reg) (s : State), s.wait = none → s.outReady = true → (s.reg c).toNat ≤ 255 →
    ∃ t byte, exec (.output c) s = .next t ∧ t.out = s.out ++ [byte] ∧ byte.toNat = (s.reg c).toNat ∧
      t = { s with out := t.out } ∧ t.ReadsAs s

/-- OUTPUT of a value above 255 faults and emits nothing (R191). -/
def Obligations.OutputAboveAByteFaults : Prop :=
  ∀ (c : Reg) (s : State), 255 < (s.reg c).toNat →
    exec (.output c) s = .next { s with status := .faulted, cause := .outputOutOfRange }

/-- INPUT takes the next event: a byte zero-extended, or all ones at end-of-input, which then persists if EOF_STICKY
(R194, R51; the stream as the list of events supplied, the end mark one of them, is the model's: log entries 6, 20). -/
def Obligations.InputTakesTheNextEvent : Prop :=
  ∀ (c : Reg) (s : State), s.wait = none →
    (∀ byte rest, s.inputClosed = false → s.input.arrived = .byte byte :: rest →
      ∃ t, exec (.input c) s = .next t ∧ (t.reg c).toNat = byte.toNat ∧
        t.input = { s.input with arrived := rest, answered := s.input.answered + 1 } ∧
        (∀ r, r ≠ c → t.reg r = s.reg r) ∧ t = { s with regs := t.regs, input := t.input } ∧ t.ReadsAs s) ∧
    (∀ rest, s.inputClosed = false → s.input.arrived = .endOfInput :: rest →
      ∃ t, exec (.input c) s = .next t ∧ t.reg c = 0xFFFFFFFF#32 ∧
        t.input = { s.input with arrived := rest, answered := s.input.answered + 1, ended := true } ∧
        (∀ r, r ≠ c → t.reg r = s.reg r) ∧ t = { s with regs := t.regs, input := t.input } ∧ t.ReadsAs s) ∧
    (s.input.ended = true → s.cfg.eofSticky = true →
      ∃ t, exec (.input c) s = .next t ∧ t.reg c = 0xFFFFFFFF#32 ∧ t.input = s.input ∧ s.OnlyRegister c t)

/-- Whatever the environment answers, INPUT completes with a byte or all ones and changes no other register and no memory
(R195, R51; for every value of the free value of log entry 6). -/
def Obligations.InputCompletesWhateverTheStream : Prop :=
  ∀ (c : Reg) (s : State), s.wait = none → s.inputReady = true →
    ∃ t, exec (.input c) s = .next t ∧ ((t.reg c).toNat ≤ 255 ∨ t.reg c = 0xFFFFFFFF#32) ∧
      (∀ r, r ≠ c → t.reg r = s.reg r) ∧ t = { s with regs := t.regs, input := t.input } ∧ t.ReadsAs s

/-- Blocking: an INPUT whose answer has not come, and an OUTPUT whose byte is not taken, wait with nothing changed; the
machine stays RUNNING in that instruction until the device acts, and then completes it (R196, log entry 7). -/
def Obligations.IoWaitsForTheDevice : Prop :=
  ∀ (c : Reg) (s : State), s.status = .running → s.wait = none →
    (s.inputReady = false →
      exec (.input c) s = .next { s with wait := some (.input c) } ∧
      step { s with wait := some (.input c) } = .next { s with wait := some (.input c) } ∧
      ∀ e, ∃ t, step (State.deviceSupplies { s with wait := some (.input c) } e) = .next t ∧
        t.reg c = inputValue e ∧ (∀ r, r ≠ c → t.reg r = s.reg r) ∧
        t = { s with regs := t.regs, input := t.input }) ∧
    (s.outReady = false → (s.reg c).toNat ≤ 255 →
      exec (.output c) s = .next { s with wait := some (.output (lowByte (s.reg c))) } ∧
      step { s with wait := some (.output (lowByte (s.reg c))) } =
        .next { s with wait := some (.output (lowByte (s.reg c))) } ∧
      step (State.deviceOutReady { s with wait := some (.output (lowByte (s.reg c))) } true) =
        .next { s with outReady := true, out := s.out ++ [BitVec.ofNat 8 (s.reg c).toNat] })

/-! ### Load program -/

/-- LOADP: with `x[b] = 0` a jump, `pc` alone changes; with a mapped id within capacity segment 0 reads as that segment did,
the source and every other segment as before; the table length, the free-list and the registers stay; `pc <- x[c]` (R200),
all of it, since a counter of PCW bits, 32 or more, holds it. -/
def Obligations.LoadpLoadsAndJumps : Prop :=
  ∀ (b c : Reg) (s : State),
    (s.reg b = 0#32 →
      ∃ t, exec (.loadp b c) s = .next t ∧ t = { s with pc := (s.reg c).toNat % 2 ^ s.cfg.pcw } ∧
        (s.cfg.wf = true → t.pc = (s.reg c).toNat) ∧ t.ReadsAs s) ∧
    (s.Inv → s.reg b ≠ 0#32 → s.mapped (s.reg b) = true →
      (∀ m, s.cfg.memWordsMax = some m → s.mappedWords - s.segLen 0#32 + s.segLen (s.reg b) ≤ m) →
      ∃ t, exec (.loadp b c) s = .next t ∧ t.pc = (s.reg c).toNat ∧ t.segLen 0#32 = s.segLen (s.reg b) ∧
        (∀ off, t.memRead 0#32 off = s.memRead (s.reg b) off) ∧ t.ReadsAsOutside s 0#32 ∧ t.tlen = s.tlen ∧
        t = { s with pc := (s.reg c).toNat, segs := t.segs })

/-- LOADP's faults, in their order; segment 0 and `pc` are as they were; with `x[b] = 0` it raises none (R201). -/
def Obligations.LoadpFaults : Prop :=
  ∀ (b c : Reg) (s : State),
    (s.reg b ≠ 0#32 → s.tlen ≤ (s.reg b).toNat →
      exec (.loadp b c) s = .next { s with status := .faulted, cause := .segmentIdOutOfRange }) ∧
    (s.reg b ≠ 0#32 → (s.reg b).toNat < s.tlen → s.reg b ∈ s.freeList →
      exec (.loadp b c) s = .next { s with status := .faulted, cause := .segmentUnmapped }) ∧
    (∀ m, s.reg b ≠ 0#32 → s.mapped (s.reg b) = true → s.cfg.memWordsMax = some m →
      m < s.mappedWords - s.segLen 0#32 + s.segLen (s.reg b) →
      exec (.loadp b c) s = .next { s with status := .faulted, cause := .resourceExhausted }) ∧
    (s.reg b = 0#32 → ∃ t, exec (.loadp b c) s = .next t ∧ t.status = s.status ∧ t.cause = s.cause)

/-! ### The parameters -/

/-- The width of the program counter is unobservable from 32 bits on: with any other PCW of at least 32 a step does the
same (R28, R34: "the incremented value ... never overflows 32 bits"; 92_eei_decisions.md D5: PCW is open; the range is
log entry 5's). -/
def Obligations.PcWidthIsUnobservable : Prop :=
  ∀ (s t : State) (width : Nat), s.Inv → 32 ≤ width → step s = .next t →
    step { s with cfg := { s.cfg with pcw := width } } = .next { t with cfg := { t.cfg with pcw := width } }

/-! ### The host contract -/

/-- `run(program_bytes) -> exit_status`, whatever the two devices do during it (R268). The core is reset with the image (a too
long image gives no run, R261), each state of the run is the step of the one before, after the devices' moves, the exit
status comes when STATUS leaves RUNNING and is 0 for HALTED and non-zero for FAULTED, and it stays; the run returns one
exit status or never returns. It never returns when it waits in an INPUT that the input device never answers, or in an
OUTPUT that the output device never takes, all else then staying as it is, or when the program loops: a RUNNING state comes
again and the devices go on as they did. Derived, from R268 with R196 and R269. The model's choices, no words of R268: the
devices' moves fall between steps (log entry 24); a machine that waits for a device (R196) is a state whose steps retry
(log entry 7); a terminal state answers itself, so that the exit status stays (log entry 1). R268 names no output device
that never takes a byte, and R269 has it accept every byte: that clause is R196's wait without end, in environments that
R269 does not allow. -/
def Obligations.RunFollowsTheHostContract : Prop :=
  ∀ (cfg : Config) (image : List Byte) (env : Environment), cfg.wf = true →
    (cfg.imageWordsMax < (imageWords image).length → ∀ n, runState cfg image env n = none) ∧
    ((imageWords image).length ≤ cfg.imageWordsMax →
      runState cfg image env 0 = State.boot cfg image ∧
      (∀ n, ∃ s t, runState cfg image env n = some s ∧ runState cfg image env (n + 1) = some t ∧
        step (s.devices (env n)) = .next t ∧
        (runImage cfg image env n = none ↔ s.status = .running) ∧
        (s.status = .halted → runImage cfg image env n = some 0) ∧
        (s.status = .faulted → runImage cfg image env n = some cfg.exitFault ∧ cfg.exitFault ≠ 0)) ∧
      (∀ n m e, runImage cfg image env n = some e → n ≤ m → runImage cfg image env m = some e) ∧
      ((∃ e, Returns cfg image env e ∧ ∀ e', Returns cfg image env e' → e' = e) ∨ NeverReturns cfg image env) ∧
      (∀ e, Returns cfg image env e → ¬ NeverReturns cfg image env)) ∧
    (∀ n s, runState cfg image env n = some s → s.status = .running →
      (∀ c, s.wait = some (.input c) → s.inputReady = false →
        (∀ k, n ≤ k → ∀ m ∈ env k, m = .silent true ∨ ∃ b, m = .outReady b) →
        NeverReturns cfg image env ∧
        ∀ k, n ≤ k → ∃ t, runState cfg image env k = some t ∧ t = { s with outReady := t.outReady }) ∧
      (∀ b, s.wait = some (.output b) → s.outReady = false → (∀ k, n ≤ k → .outReady true ∉ env k) →
        NeverReturns cfg image env ∧
        ∀ k, n ≤ k → ∃ t, runState cfg image env k = some t ∧ t = { s with input := t.input }) ∧
      (∀ p, 0 < p → runState cfg image env (n + p) = some s → (∀ k, n ≤ k → env (k + p) = env k) →
        NeverReturns cfg image env))
end

