-- ==== Sys2Proof/Laws/State.lean ====
section
/-! SUPPORT. One lemma per field per update of State, true by rfl, so that no proof unfolds a record update; and the
laws of reading a register. -/

namespace Sys2Proof.Machine

variable (s : State)

/-! `setReg` -/

@[simp] theorem State.setReg_regs (i : Reg) (v : Word) : (s.setReg i v).regs = s.regs.set i.val v := rfl
@[simp] theorem State.setReg_pc (i : Reg) (v : Word) : (s.setReg i v).pc = s.pc := rfl
@[simp] theorem State.setReg_status (i : Reg) (v : Word) : (s.setReg i v).status = s.status := rfl
@[simp] theorem State.setReg_stopReason (i : Reg) (v : Word) : (s.setReg i v).stopReason = s.stopReason := rfl
@[simp] theorem State.setReg_cause (i : Reg) (v : Word) : (s.setReg i v).cause = s.cause := rfl
@[simp] theorem State.setReg_segs (i : Reg) (v : Word) : (s.setReg i v).segs = s.segs := rfl
@[simp] theorem State.setReg_freeList (i : Reg) (v : Word) : (s.setReg i v).freeList = s.freeList := rfl
@[simp] theorem State.setReg_out (i : Reg) (v : Word) : (s.setReg i v).out = s.out := rfl
@[simp] theorem State.setReg_input (i : Reg) (v : Word) : (s.setReg i v).input = s.input := rfl
@[simp] theorem State.setReg_outReady (i : Reg) (v : Word) : (s.setReg i v).outReady = s.outReady := rfl
@[simp] theorem State.setReg_wait (i : Reg) (v : Word) : (s.setReg i v).wait = s.wait := rfl
@[simp] theorem State.setReg_cfg (i : Reg) (v : Word) : (s.setReg i v).cfg = s.cfg := rfl

/-! `setPc` -/

@[simp] theorem State.setPc_regs (t : Nat) : (s.setPc t).regs = s.regs := rfl
@[simp] theorem State.setPc_pc (t : Nat) : (s.setPc t).pc = t % 2 ^ s.cfg.pcw := rfl
@[simp] theorem State.setPc_status (t : Nat) : (s.setPc t).status = s.status := rfl
@[simp] theorem State.setPc_stopReason (t : Nat) : (s.setPc t).stopReason = s.stopReason := rfl
@[simp] theorem State.setPc_cause (t : Nat) : (s.setPc t).cause = s.cause := rfl
@[simp] theorem State.setPc_segs (t : Nat) : (s.setPc t).segs = s.segs := rfl
@[simp] theorem State.setPc_freeList (t : Nat) : (s.setPc t).freeList = s.freeList := rfl
@[simp] theorem State.setPc_out (t : Nat) : (s.setPc t).out = s.out := rfl
@[simp] theorem State.setPc_input (t : Nat) : (s.setPc t).input = s.input := rfl
@[simp] theorem State.setPc_outReady (t : Nat) : (s.setPc t).outReady = s.outReady := rfl
@[simp] theorem State.setPc_wait (t : Nat) : (s.setPc t).wait = s.wait := rfl
@[simp] theorem State.setPc_cfg (t : Nat) : (s.setPc t).cfg = s.cfg := rfl

/-! `raiseFault` -/

@[simp] theorem State.raiseFault_regs (c : Cause) : (s.raiseFault c).regs = s.regs := rfl
@[simp] theorem State.raiseFault_pc (c : Cause) : (s.raiseFault c).pc = s.pc := rfl
@[simp] theorem State.raiseFault_status (c : Cause) : (s.raiseFault c).status = .faulted := rfl
@[simp] theorem State.raiseFault_stopReason (c : Cause) : (s.raiseFault c).stopReason = s.stopReason := rfl
@[simp] theorem State.raiseFault_cause (c : Cause) : (s.raiseFault c).cause = c := rfl
@[simp] theorem State.raiseFault_segs (c : Cause) : (s.raiseFault c).segs = s.segs := rfl
@[simp] theorem State.raiseFault_freeList (c : Cause) : (s.raiseFault c).freeList = s.freeList := rfl
@[simp] theorem State.raiseFault_out (c : Cause) : (s.raiseFault c).out = s.out := rfl
@[simp] theorem State.raiseFault_input (c : Cause) : (s.raiseFault c).input = s.input := rfl
@[simp] theorem State.raiseFault_outReady (c : Cause) : (s.raiseFault c).outReady = s.outReady := rfl
@[simp] theorem State.raiseFault_wait (c : Cause) : (s.raiseFault c).wait = s.wait := rfl
@[simp] theorem State.raiseFault_cfg (c : Cause) : (s.raiseFault c).cfg = s.cfg := rfl

/-! `stopRun` -/

@[simp] theorem State.stopRun_regs (why : StopReason) : (s.stopRun why).regs = s.regs := rfl
@[simp] theorem State.stopRun_pc (why : StopReason) : (s.stopRun why).pc = s.pc := rfl
@[simp] theorem State.stopRun_status (why : StopReason) : (s.stopRun why).status = .halted := rfl
@[simp] theorem State.stopRun_stopReason (why : StopReason) : (s.stopRun why).stopReason = why := rfl
@[simp] theorem State.stopRun_cause (why : StopReason) : (s.stopRun why).cause = s.cause := rfl
@[simp] theorem State.stopRun_segs (why : StopReason) : (s.stopRun why).segs = s.segs := rfl
@[simp] theorem State.stopRun_freeList (why : StopReason) : (s.stopRun why).freeList = s.freeList := rfl
@[simp] theorem State.stopRun_out (why : StopReason) : (s.stopRun why).out = s.out := rfl
@[simp] theorem State.stopRun_input (why : StopReason) : (s.stopRun why).input = s.input := rfl
@[simp] theorem State.stopRun_outReady (why : StopReason) : (s.stopRun why).outReady = s.outReady := rfl
@[simp] theorem State.stopRun_wait (why : StopReason) : (s.stopRun why).wait = s.wait := rfl
@[simp] theorem State.stopRun_cfg (why : StopReason) : (s.stopRun why).cfg = s.cfg := rfl

/-! `setSegs` -/

@[simp] theorem State.setSegs_regs (m : Memory) : (s.setSegs m).regs = s.regs := rfl
@[simp] theorem State.setSegs_pc (m : Memory) : (s.setSegs m).pc = s.pc := rfl
@[simp] theorem State.setSegs_status (m : Memory) : (s.setSegs m).status = s.status := rfl
@[simp] theorem State.setSegs_stopReason (m : Memory) : (s.setSegs m).stopReason = s.stopReason := rfl
@[simp] theorem State.setSegs_cause (m : Memory) : (s.setSegs m).cause = s.cause := rfl
@[simp] theorem State.setSegs_segs (m : Memory) : (s.setSegs m).segs = m := rfl
@[simp] theorem State.setSegs_freeList (m : Memory) : (s.setSegs m).freeList = s.freeList := rfl
@[simp] theorem State.setSegs_out (m : Memory) : (s.setSegs m).out = s.out := rfl
@[simp] theorem State.setSegs_input (m : Memory) : (s.setSegs m).input = s.input := rfl
@[simp] theorem State.setSegs_outReady (m : Memory) : (s.setSegs m).outReady = s.outReady := rfl
@[simp] theorem State.setSegs_wait (m : Memory) : (s.setSegs m).wait = s.wait := rfl
@[simp] theorem State.setSegs_cfg (m : Memory) : (s.setSegs m).cfg = s.cfg := rfl

/-! `setFreeList` -/

@[simp] theorem State.setFreeList_regs (fl : List Word) : (s.setFreeList fl).regs = s.regs := rfl
@[simp] theorem State.setFreeList_pc (fl : List Word) : (s.setFreeList fl).pc = s.pc := rfl
@[simp] theorem State.setFreeList_status (fl : List Word) : (s.setFreeList fl).status = s.status := rfl
@[simp] theorem State.setFreeList_stopReason (fl : List Word) : (s.setFreeList fl).stopReason = s.stopReason := rfl
@[simp] theorem State.setFreeList_cause (fl : List Word) : (s.setFreeList fl).cause = s.cause := rfl
@[simp] theorem State.setFreeList_segs (fl : List Word) : (s.setFreeList fl).segs = s.segs := rfl
@[simp] theorem State.setFreeList_freeList (fl : List Word) : (s.setFreeList fl).freeList = fl := rfl
@[simp] theorem State.setFreeList_out (fl : List Word) : (s.setFreeList fl).out = s.out := rfl
@[simp] theorem State.setFreeList_input (fl : List Word) : (s.setFreeList fl).input = s.input := rfl
@[simp] theorem State.setFreeList_outReady (fl : List Word) : (s.setFreeList fl).outReady = s.outReady := rfl
@[simp] theorem State.setFreeList_wait (fl : List Word) : (s.setFreeList fl).wait = s.wait := rfl
@[simp] theorem State.setFreeList_cfg (fl : List Word) : (s.setFreeList fl).cfg = s.cfg := rfl

/-! `emit` -/

@[simp] theorem State.emit_regs (b : Byte) : (s.emit b).regs = s.regs := rfl
@[simp] theorem State.emit_pc (b : Byte) : (s.emit b).pc = s.pc := rfl
@[simp] theorem State.emit_status (b : Byte) : (s.emit b).status = s.status := rfl
@[simp] theorem State.emit_stopReason (b : Byte) : (s.emit b).stopReason = s.stopReason := rfl
@[simp] theorem State.emit_cause (b : Byte) : (s.emit b).cause = s.cause := rfl
@[simp] theorem State.emit_segs (b : Byte) : (s.emit b).segs = s.segs := rfl
@[simp] theorem State.emit_freeList (b : Byte) : (s.emit b).freeList = s.freeList := rfl
@[simp] theorem State.emit_out (b : Byte) : (s.emit b).out = s.out ++ [b] := rfl
@[simp] theorem State.emit_input (b : Byte) : (s.emit b).input = s.input := rfl
@[simp] theorem State.emit_outReady (b : Byte) : (s.emit b).outReady = s.outReady := rfl
@[simp] theorem State.emit_wait (b : Byte) : (s.emit b).wait = s.wait := rfl
@[simp] theorem State.emit_cfg (b : Byte) : (s.emit b).cfg = s.cfg := rfl

/-! `setInput` -/

@[simp] theorem State.setInput_regs (p : InPort) : (s.setInput p).regs = s.regs := rfl
@[simp] theorem State.setInput_pc (p : InPort) : (s.setInput p).pc = s.pc := rfl
@[simp] theorem State.setInput_status (p : InPort) : (s.setInput p).status = s.status := rfl
@[simp] theorem State.setInput_stopReason (p : InPort) : (s.setInput p).stopReason = s.stopReason := rfl
@[simp] theorem State.setInput_cause (p : InPort) : (s.setInput p).cause = s.cause := rfl
@[simp] theorem State.setInput_segs (p : InPort) : (s.setInput p).segs = s.segs := rfl
@[simp] theorem State.setInput_freeList (p : InPort) : (s.setInput p).freeList = s.freeList := rfl
@[simp] theorem State.setInput_out (p : InPort) : (s.setInput p).out = s.out := rfl
@[simp] theorem State.setInput_input (p : InPort) : (s.setInput p).input = p := rfl
@[simp] theorem State.setInput_outReady (p : InPort) : (s.setInput p).outReady = s.outReady := rfl
@[simp] theorem State.setInput_wait (p : InPort) : (s.setInput p).wait = s.wait := rfl
@[simp] theorem State.setInput_cfg (p : InPort) : (s.setInput p).cfg = s.cfg := rfl

/-! `setWait` -/

@[simp] theorem State.setWait_regs (w : Option IoWait) : (s.setWait w).regs = s.regs := rfl
@[simp] theorem State.setWait_pc (w : Option IoWait) : (s.setWait w).pc = s.pc := rfl
@[simp] theorem State.setWait_status (w : Option IoWait) : (s.setWait w).status = s.status := rfl
@[simp] theorem State.setWait_stopReason (w : Option IoWait) : (s.setWait w).stopReason = s.stopReason := rfl
@[simp] theorem State.setWait_cause (w : Option IoWait) : (s.setWait w).cause = s.cause := rfl
@[simp] theorem State.setWait_segs (w : Option IoWait) : (s.setWait w).segs = s.segs := rfl
@[simp] theorem State.setWait_freeList (w : Option IoWait) : (s.setWait w).freeList = s.freeList := rfl
@[simp] theorem State.setWait_out (w : Option IoWait) : (s.setWait w).out = s.out := rfl
@[simp] theorem State.setWait_input (w : Option IoWait) : (s.setWait w).input = s.input := rfl
@[simp] theorem State.setWait_outReady (w : Option IoWait) : (s.setWait w).outReady = s.outReady := rfl
@[simp] theorem State.setWait_wait (w : Option IoWait) : (s.setWait w).wait = w := rfl
@[simp] theorem State.setWait_cfg (w : Option IoWait) : (s.setWait w).cfg = s.cfg := rfl

/-! `deviceOutReady` -/

@[simp] theorem State.deviceOutReady_regs (b : Bool) : (s.deviceOutReady b).regs = s.regs := rfl
@[simp] theorem State.deviceOutReady_pc (b : Bool) : (s.deviceOutReady b).pc = s.pc := rfl
@[simp] theorem State.deviceOutReady_status (b : Bool) : (s.deviceOutReady b).status = s.status := rfl
@[simp] theorem State.deviceOutReady_stopReason (b : Bool) : (s.deviceOutReady b).stopReason = s.stopReason := rfl
@[simp] theorem State.deviceOutReady_cause (b : Bool) : (s.deviceOutReady b).cause = s.cause := rfl
@[simp] theorem State.deviceOutReady_segs (b : Bool) : (s.deviceOutReady b).segs = s.segs := rfl
@[simp] theorem State.deviceOutReady_freeList (b : Bool) : (s.deviceOutReady b).freeList = s.freeList := rfl
@[simp] theorem State.deviceOutReady_out (b : Bool) : (s.deviceOutReady b).out = s.out := rfl
@[simp] theorem State.deviceOutReady_input (b : Bool) : (s.deviceOutReady b).input = s.input := rfl
@[simp] theorem State.deviceOutReady_outReady (b : Bool) : (s.deviceOutReady b).outReady = b := rfl
@[simp] theorem State.deviceOutReady_wait (b : Bool) : (s.deviceOutReady b).wait = s.wait := rfl
@[simp] theorem State.deviceOutReady_cfg (b : Bool) : (s.deviceOutReady b).cfg = s.cfg := rfl

/-! Registers -/

/-- A register reads as what was written to it, and as before where another was written (10_state.md rule R24). -/
theorem State.reg_setReg (i r : Reg) (v : Word) : (s.setReg i v).reg r = if r = i then v else s.reg r := by
  by_cases h : r = i
  · subst h; simp [State.reg, State.setReg]
  · have h2 : i.val ≠ r.val := fun e => h (Fin.ext e.symm)
    simp [State.reg, State.setReg, h, Vector.getElem_set_ne, h2]

@[simp] theorem State.reg_setReg_self (i : Reg) (v : Word) : (s.setReg i v).reg i = v := by
  simp [State.reg_setReg]

theorem State.reg_setReg_of_ne (i r : Reg) (v : Word) (h : r ≠ i) : (s.setReg i v).reg r = s.reg r := by
  simp [State.reg_setReg, h]

/-- States with the same register file read the same registers. -/
theorem State.reg_congr (t : State) (h : t.regs = s.regs) (r : Reg) : t.reg r = s.reg r := by
  simp [State.reg, h]

@[simp] theorem State.reg_setPc (t : Nat) (r : Reg) : (s.setPc t).reg r = s.reg r := rfl
@[simp] theorem State.reg_raiseFault (c : Cause) (r : Reg) : (s.raiseFault c).reg r = s.reg r := rfl
@[simp] theorem State.reg_stopRun (why : StopReason) (r : Reg) : (s.stopRun why).reg r = s.reg r := rfl
@[simp] theorem State.reg_setSegs (m : Memory) (r : Reg) : (s.setSegs m).reg r = s.reg r := rfl
@[simp] theorem State.reg_setFreeList (fl : List Word) (r : Reg) : (s.setFreeList fl).reg r = s.reg r := rfl
@[simp] theorem State.reg_emit (b : Byte) (r : Reg) : (s.emit b).reg r = s.reg r := rfl
@[simp] theorem State.reg_setInput (p : InPort) (r : Reg) : (s.setInput p).reg r = s.reg r := rfl
@[simp] theorem State.reg_setWait (w : Option IoWait) (r : Reg) : (s.setWait w).reg r = s.reg r := rfl
@[simp] theorem State.reg_deviceOutReady (b : Bool) (r : Reg) : (s.deviceOutReady b).reg r = s.reg r := rfl

/-! The segment table seen through an update that leaves it alone -/

@[simp] theorem State.tlen_setReg (i : Reg) (v : Word) : (s.setReg i v).tlen = s.tlen := rfl
@[simp] theorem State.seg_setReg (i : Reg) (v : Word) (id : Word) : (s.setReg i v).seg id = s.seg id := rfl
@[simp] theorem State.segLen_setReg (i : Reg) (v : Word) (id : Word) : (s.setReg i v).segLen id = s.segLen id := rfl
@[simp] theorem State.mapped_setReg (i : Reg) (v : Word) (id : Word) : (s.setReg i v).mapped id = s.mapped id := rfl
@[simp] theorem State.memRead_setReg (i : Reg) (v : Word) (id : Word) (off : Nat) : (s.setReg i v).memRead id off = s.memRead id off := rfl
@[simp] theorem State.mappedWords_setReg (i : Reg) (v : Word) : (s.setReg i v).mappedWords = s.mappedWords := rfl
@[simp] theorem State.tlen_setPc (t : Nat) : (s.setPc t).tlen = s.tlen := rfl
@[simp] theorem State.seg_setPc (t : Nat) (id : Word) : (s.setPc t).seg id = s.seg id := rfl
@[simp] theorem State.segLen_setPc (t : Nat) (id : Word) : (s.setPc t).segLen id = s.segLen id := rfl
@[simp] theorem State.mapped_setPc (t : Nat) (id : Word) : (s.setPc t).mapped id = s.mapped id := rfl
@[simp] theorem State.memRead_setPc (t : Nat) (id : Word) (off : Nat) : (s.setPc t).memRead id off = s.memRead id off := rfl
@[simp] theorem State.mappedWords_setPc (t : Nat) : (s.setPc t).mappedWords = s.mappedWords := rfl
@[simp] theorem State.tlen_raiseFault (c : Cause) : (s.raiseFault c).tlen = s.tlen := rfl
@[simp] theorem State.seg_raiseFault (c : Cause) (id : Word) : (s.raiseFault c).seg id = s.seg id := rfl
@[simp] theorem State.segLen_raiseFault (c : Cause) (id : Word) : (s.raiseFault c).segLen id = s.segLen id := rfl
@[simp] theorem State.mapped_raiseFault (c : Cause) (id : Word) : (s.raiseFault c).mapped id = s.mapped id := rfl
@[simp] theorem State.memRead_raiseFault (c : Cause) (id : Word) (off : Nat) : (s.raiseFault c).memRead id off = s.memRead id off := rfl
@[simp] theorem State.mappedWords_raiseFault (c : Cause) : (s.raiseFault c).mappedWords = s.mappedWords := rfl
@[simp] theorem State.tlen_stopRun (why : StopReason) : (s.stopRun why).tlen = s.tlen := rfl
@[simp] theorem State.seg_stopRun (why : StopReason) (id : Word) : (s.stopRun why).seg id = s.seg id := rfl
@[simp] theorem State.segLen_stopRun (why : StopReason) (id : Word) : (s.stopRun why).segLen id = s.segLen id := rfl
@[simp] theorem State.mapped_stopRun (why : StopReason) (id : Word) : (s.stopRun why).mapped id = s.mapped id := rfl
@[simp] theorem State.memRead_stopRun (why : StopReason) (id : Word) (off : Nat) : (s.stopRun why).memRead id off = s.memRead id off := rfl
@[simp] theorem State.mappedWords_stopRun (why : StopReason) : (s.stopRun why).mappedWords = s.mappedWords := rfl
@[simp] theorem State.tlen_emit (b : Byte) : (s.emit b).tlen = s.tlen := rfl
@[simp] theorem State.seg_emit (b : Byte) (id : Word) : (s.emit b).seg id = s.seg id := rfl
@[simp] theorem State.segLen_emit (b : Byte) (id : Word) : (s.emit b).segLen id = s.segLen id := rfl
@[simp] theorem State.mapped_emit (b : Byte) (id : Word) : (s.emit b).mapped id = s.mapped id := rfl
@[simp] theorem State.memRead_emit (b : Byte) (id : Word) (off : Nat) : (s.emit b).memRead id off = s.memRead id off := rfl
@[simp] theorem State.mappedWords_emit (b : Byte) : (s.emit b).mappedWords = s.mappedWords := rfl
@[simp] theorem State.tlen_setInput (p : InPort) : (s.setInput p).tlen = s.tlen := rfl
@[simp] theorem State.seg_setInput (p : InPort) (id : Word) : (s.setInput p).seg id = s.seg id := rfl
@[simp] theorem State.segLen_setInput (p : InPort) (id : Word) : (s.setInput p).segLen id = s.segLen id := rfl
@[simp] theorem State.mapped_setInput (p : InPort) (id : Word) : (s.setInput p).mapped id = s.mapped id := rfl
@[simp] theorem State.memRead_setInput (p : InPort) (id : Word) (off : Nat) : (s.setInput p).memRead id off = s.memRead id off := rfl
@[simp] theorem State.mappedWords_setInput (p : InPort) : (s.setInput p).mappedWords = s.mappedWords := rfl
@[simp] theorem State.tlen_setWait (w : Option IoWait) : (s.setWait w).tlen = s.tlen := rfl
@[simp] theorem State.seg_setWait (w : Option IoWait) (id : Word) : (s.setWait w).seg id = s.seg id := rfl
@[simp] theorem State.segLen_setWait (w : Option IoWait) (id : Word) : (s.setWait w).segLen id = s.segLen id := rfl
@[simp] theorem State.mapped_setWait (w : Option IoWait) (id : Word) : (s.setWait w).mapped id = s.mapped id := rfl
@[simp] theorem State.memRead_setWait (w : Option IoWait) (id : Word) (off : Nat) : (s.setWait w).memRead id off = s.memRead id off := rfl
@[simp] theorem State.mappedWords_setWait (w : Option IoWait) : (s.setWait w).mappedWords = s.mappedWords := rfl
@[simp] theorem State.tlen_deviceOutReady (b : Bool) : (s.deviceOutReady b).tlen = s.tlen := rfl
@[simp] theorem State.seg_deviceOutReady (b : Bool) (id : Word) : (s.deviceOutReady b).seg id = s.seg id := rfl
@[simp] theorem State.segLen_deviceOutReady (b : Bool) (id : Word) : (s.deviceOutReady b).segLen id = s.segLen id := rfl
@[simp] theorem State.mapped_deviceOutReady (b : Bool) (id : Word) : (s.deviceOutReady b).mapped id = s.mapped id := rfl
@[simp] theorem State.memRead_deviceOutReady (b : Bool) (id : Word) (off : Nat) : (s.deviceOutReady b).memRead id off = s.memRead id off := rfl
@[simp] theorem State.mappedWords_deviceOutReady (b : Bool) : (s.deviceOutReady b).mappedWords = s.mappedWords := rfl

/-- Reading memory depends on the table and the free-list alone. -/
theorem State.memRead_congr (t : State) (h1 : t.segs = s.segs) (h2 : t.freeList = s.freeList) (id : Word) (off : Nat) :
    t.memRead id off = s.memRead id off := by
  have h : t.memRead id off = ({ s with segs := t.segs, freeList := t.freeList } : State).memRead id off := rfl
  rw [h, h1, h2]

end Sys2Proof.Machine
end

