-- ==== Sys2Proof/Laws/Cells.lean ====
section
/-! SUPPORT. The words of a segment: read after write, the canonical form, and that equal contents are equal data. -/

namespace Sys2Proof.Machine

theorem cellRead_write_ne (cs : List Cell) (off off' : Nat) (v : Word) (h : off' ≠ off) :
    cellRead (cellWrite cs off v) off' = cellRead cs off' := by
  induction cs with
  | nil => simp only [cellWrite]; split <;> simp [cellRead, Ne.symm h]
  | cons kv rest ih =>
    obtain ⟨k, u⟩ := kv
    simp only [cellWrite]
    split
    · split <;> simp [cellRead, Ne.symm h]
    · split
      · rename_i h2
        split <;> simp [cellRead, Ne.symm h, ← h2]
      · simp [cellRead, ih]

theorem cellRead_below (lo len : Nat) (cs : List Cell) (off : Nat) (hw : cellsWf lo len cs = true) (h : off < lo) :
    cellRead cs off = 0#32 := by
  induction cs generalizing lo with
  | nil => rfl
  | cons kv rest ih =>
    obtain ⟨k, u⟩ := kv
    simp only [cellsWf, Bool.and_eq_true, decide_eq_true_eq] at hw
    obtain ⟨⟨⟨hlo, _⟩, _⟩, hr⟩ := hw
    simp only [cellRead]
    rw [if_neg (by omega)]
    exact ih (k + 1) hr (by omega)

theorem cellRead_write_self (lo len : Nat) (cs : List Cell) (off : Nat) (v : Word) (hw : cellsWf lo len cs = true) :
    cellRead (cellWrite cs off v) off = v := by
  induction cs generalizing lo with
  | nil =>
    simp only [cellWrite]
    split
    · rename_i hv; rw [hv]; rfl
    · simp [cellRead]
  | cons kv rest ih =>
    obtain ⟨k, u⟩ := kv
    simp only [cellsWf, Bool.and_eq_true, decide_eq_true_eq] at hw
    obtain ⟨⟨⟨_, _⟩, _⟩, hr⟩ := hw
    simp only [cellWrite]
    split
    · rename_i hlt
      split
      · rename_i hv
        simp only [cellRead]
        rw [if_neg (by omega), hv]
        exact cellRead_below (k + 1) len rest off hr (by omega)
      · simp [cellRead]
    · split
      · rename_i heq
        split
        · rename_i hv
          rw [hv]
          exact cellRead_below (k + 1) len rest off hr (by omega)
        · simp [cellRead]
      · simp only [cellRead]
        rw [if_neg (by omega)]
        exact ih (k + 1) hr

theorem cellsWf_mono (lo lo' len : Nat) (cs : List Cell) (hw : cellsWf lo len cs = true) (h : lo' ≤ lo) :
    cellsWf lo' len cs = true := by
  cases cs with
  | nil => rfl
  | cons kv rest =>
    obtain ⟨k, u⟩ := kv
    simp only [cellsWf, Bool.and_eq_true, decide_eq_true_eq] at hw ⊢
    obtain ⟨⟨⟨h1, h2⟩, h3⟩, h4⟩ := hw
    exact ⟨⟨⟨by omega, h2⟩, h3⟩, h4⟩

theorem cellsWf_len_mono (lo len len' : Nat) (cs : List Cell) (hw : cellsWf lo len cs = true) (h : len ≤ len') :
    cellsWf lo len' cs = true := by
  induction cs generalizing lo with
  | nil => rfl
  | cons kv rest ih =>
    obtain ⟨k, u⟩ := kv
    simp only [cellsWf, Bool.and_eq_true, decide_eq_true_eq] at hw ⊢
    obtain ⟨⟨⟨h1, h2⟩, h3⟩, h4⟩ := hw
    exact ⟨⟨⟨h1, by omega⟩, h3⟩, ih (k + 1) h4⟩

/-- A write inside the segment keeps the canonical form. -/
theorem cellWrite_wf (lo len : Nat) (cs : List Cell) (off : Nat) (v : Word) (hw : cellsWf lo len cs = true)
    (hlo : lo ≤ off) (hoff : off < len) : cellsWf lo len (cellWrite cs off v) = true := by
  induction cs generalizing lo with
  | nil =>
    simp only [cellWrite]
    split
    · rfl
    · rename_i hv
      simp only [cellsWf, Bool.and_eq_true, decide_eq_true_eq]
      exact ⟨⟨⟨hlo, hoff⟩, hv⟩, trivial⟩
  | cons kv rest ih =>
    obtain ⟨k, u⟩ := kv
    have hw0 := hw
    simp only [cellsWf, Bool.and_eq_true, decide_eq_true_eq] at hw
    obtain ⟨⟨⟨h1, h2⟩, h3⟩, h4⟩ := hw
    simp only [cellWrite]
    split
    · split
      · exact hw0
      · rename_i hlt hv
        simp only [cellsWf, Bool.and_eq_true, decide_eq_true_eq]
        exact ⟨⟨⟨hlo, hoff⟩, hv⟩, ⟨⟨by omega, h2⟩, h3⟩, h4⟩
    · split
      · rename_i heq
        split
        · exact cellsWf_mono (k + 1) lo len rest h4 (by omega)
        · rename_i hv
          simp only [cellsWf, Bool.and_eq_true, decide_eq_true_eq]
          exact ⟨⟨⟨hlo, hoff⟩, hv⟩, heq ▸ h4⟩
      · simp only [cellsWf, Bool.and_eq_true, decide_eq_true_eq]
        exact ⟨⟨⟨h1, h2⟩, h3⟩, ih (k + 1) h4 (by omega)⟩

theorem cellsFrom_wf (off : Nat) (ws : List Word) : cellsWf off (off + ws.length) (cellsFrom off ws) = true := by
  induction ws generalizing off with
  | nil => rfl
  | cons w rest ih =>
    have h := ih (off + 1)
    have hl : off + 1 + rest.length = off + (w :: rest).length := by simp; omega
    rw [hl] at h
    simp only [cellsFrom]
    split
    · exact cellsWf_mono (off + 1) off _ _ h (by omega)
    · rename_i hv
      simp only [cellsWf, Bool.and_eq_true, decide_eq_true_eq]
      exact ⟨⟨⟨Nat.le_refl _, by simp⟩, hv⟩, h⟩

/-- The cells of a list of words read as the list. -/
theorem cellRead_cellsFrom (off : Nat) (ws : List Word) (i : Nat) :
    cellRead (cellsFrom off ws) (off + i) = ws.getD i 0#32 := by
  induction ws generalizing off i with
  | nil => simp [cellsFrom, cellRead]
  | cons w rest ih =>
    simp only [cellsFrom]
    cases i with
    | zero =>
      split
      · rename_i hv
        have h := cellsFrom_wf (off + 1) rest
        rw [cellRead_below (off + 1) _ _ _ h (by omega)]
        simp [hv]
      · simp [cellRead]
    | succ j =>
      have h := ih (off + 1) j
      have e : off + 1 + j = off + (j + 1) := by omega
      rw [e] at h
      split
      · simpa using h
      · simp only [cellRead]
        rw [if_neg (by omega)]
        simpa using h

/-! ### Segments -/

@[simp] theorem Segment.len_put (g : Segment) (off : Nat) (v : Word) : (g.put off v).len = g.len := rfl
@[simp] theorem Segment.len_zero (n : Nat) : (Segment.zero n).len = n := rfl
@[simp] theorem Segment.word_zero (n off : Nat) : (Segment.zero n).word off = 0#32 := rfl
@[simp] theorem Segment.len_empty : Segment.empty.len = 0 := rfl
@[simp] theorem Segment.len_ofWords (ws : List Word) : (Segment.ofWords ws).len = ws.length := rfl

theorem Segment.word_ofWords (ws : List Word) (i : Nat) : (Segment.ofWords ws).word i = ws.getD i 0#32 := by
  simpa [Segment.word, Segment.ofWords] using cellRead_cellsFrom 0 ws i

theorem Segment.wf_iff (g : Segment) : g.wf = true ↔ g.len ≤ maxSegLen ∧ cellsWf 0 g.len g.cells = true := by
  simp [Segment.wf]

theorem Segment.word_put_self (g : Segment) (off : Nat) (v : Word) (hw : g.wf = true) : (g.put off v).word off = v :=
  cellRead_write_self 0 g.len g.cells off v ((Segment.wf_iff g).1 hw).2

theorem Segment.word_put_ne (g : Segment) (off off' : Nat) (v : Word) (h : off' ≠ off) :
    (g.put off v).word off' = g.word off' := cellRead_write_ne g.cells off off' v h

theorem Segment.put_wf (g : Segment) (off : Nat) (v : Word) (hw : g.wf = true) (h : off < g.len) :
    (g.put off v).wf = true := by
  obtain ⟨h1, h2⟩ := (Segment.wf_iff g).1 hw
  exact (Segment.wf_iff _).2 ⟨h1, cellWrite_wf 0 g.len g.cells off v h2 (Nat.zero_le _) h⟩

theorem Segment.zero_wf (n : Nat) (h : n ≤ maxSegLen) : (Segment.zero n).wf = true :=
  (Segment.wf_iff _).2 ⟨h, rfl⟩

theorem Segment.empty_wf : Segment.empty.wf = true := Segment.zero_wf 0 (by decide)

theorem Segment.ofWords_wf (ws : List Word) (h : ws.length ≤ maxSegLen) : (Segment.ofWords ws).wf = true := by
  refine (Segment.wf_iff _).2 ⟨h, ?_⟩
  simpa [Segment.ofWords] using cellsFrom_wf 0 ws

/-! ### The table -/

theorem Memory.wf_iff (m : Memory) : Memory.wf m = true ↔ ∀ g ∈ m, g.wf = true := by
  simp [Memory.wf]

theorem Memory.wf_set (m : Memory) (k : Nat) (g : Segment) (hm : Memory.wf m = true) (hg : g.wf = true) :
    Memory.wf (m.set k g) = true := by
  rw [Memory.wf_iff] at hm ⊢
  intro h hh
  rcases List.mem_or_eq_of_mem_set hh with h1 | h1
  · exact hm h h1
  · exact h1 ▸ hg

theorem Memory.wf_append (m : Memory) (g : Segment) (hm : Memory.wf m = true) (hg : g.wf = true) :
    Memory.wf (m ++ [g]) = true := by
  rw [Memory.wf_iff] at hm ⊢
  intro h hh
  rcases List.mem_append.1 hh with h1 | h1
  · exact hm h h1
  · rw [List.mem_singleton.1 h1]; exact hg

theorem Memory.wf_getD (m : Memory) (k : Nat) (hm : Memory.wf m = true) : (m.getD k Segment.empty).wf = true := by
  rw [Memory.wf_iff] at hm
  by_cases h : k < m.length
  · have e : m.getD k Segment.empty = m[k] := by simp [List.getD_eq_getElem?_getD, h]
    rw [e]; exact hm _ (List.getElem_mem h)
  · have e : m.getD k Segment.empty = Segment.empty := by simp [List.getD_eq_getElem?_getD, h]
    rw [e]; exact Segment.empty_wf

theorem Memory.reset_wf : Memory.wf State.reset.segs = true := by decide

end Sys2Proof.Machine
end

