-- ==== Sys2Proof/Laws/Encoding.lean ====
section
/-! SUPPORT. Reading the fields of a word back (30_encoding.md rules R101, R102, R132), in bits and in arithmetic, and the
bytes of a word (20_memory.md rule R77). -/

namespace Sys2Proof

theorem wordOfBytes_bytes (w : Word) :
    wordOfBytes (w.extractLsb' 24 8) (w.extractLsb' 16 8) (w.extractLsb' 8 8) (w.extractLsb' 0 8) = w := by
  apply BitVec.eq_of_getLsbD_eq
  intro i hi
  simp only [wordOfBytes, BitVec.getLsbD_append, BitVec.getLsbD_extractLsb']
  interval_cases i <;> simp

/-- Four bytes as an unsigned number: the first is the most significant. -/
theorem toNat_wordOfBytes (b0 b1 b2 b3 : Byte) :
    (wordOfBytes b0 b1 b2 b3).toNat = b0.toNat * 2 ^ 24 + b1.toNat * 2 ^ 16 + b2.toNat * 2 ^ 8 + b3.toNat := by
  have h1 := b1.isLt
  have h2 := b2.isLt
  have h3 := b3.isLt
  simp only [wordOfBytes, BitVec.toNat_append]
  rw [← Nat.shiftLeft_add_eq_or_of_lt h1, ← Nat.shiftLeft_add_eq_or_of_lt h2, ← Nat.shiftLeft_add_eq_or_of_lt h3]
  simp only [Nat.shiftLeft_eq]
  omega

theorem decodeBytes_bytesOfWord (w : Word) (rest : List Byte) :
    decodeBytes (bytesOfWord w ++ rest) = .ok (decode w, rest) := by
  simp only [bytesOfWord, List.cons_append, List.nil_append, decodeBytes, wordOfBytes_bytes]

/-! ### Fields in arithmetic -/

theorem toNat_opField (w : Word) : (opField w).toNat = w.toNat / 2 ^ 28 := by
  have := w.isLt
  simp [opField, Nat.shiftRight_eq_div_pow]
  omega

theorem aField_eq (w : Word) : aField w = Fin.ofNat 8 (w.toNat / 2 ^ 6) := by
  apply Fin.ext; simp [aField, Nat.shiftRight_eq_div_pow]

theorem bField_eq (w : Word) : bField w = Fin.ofNat 8 (w.toNat / 2 ^ 3) := by
  apply Fin.ext; simp [bField, Nat.shiftRight_eq_div_pow]

theorem cField_eq (w : Word) : cField w = Fin.ofNat 8 w.toNat := by
  apply Fin.ext; simp [cField]

theorem aImmField_eq (w : Word) : aImmField w = Fin.ofNat 8 (w.toNat / 2 ^ 25) := by
  apply Fin.ext; simp [aImmField, Nat.shiftRight_eq_div_pow]

theorem toNat_immField (w : Word) : (immField w).toNat = w.toNat % 2 ^ 25 := by
  simp [immField]

/-! ### Fields of an encoded word -/

/-- The four fields of the three-register format do not overlap. -/
theorem encodeReg3_fields (op : BitVec 4) (a b c : Reg) :
    opField (encodeReg3 op a b c) = op ∧ aField (encodeReg3 op a b c) = a ∧ bField (encodeReg3 op a b c) = b ∧
      cField (encodeReg3 op a b c) = c := by
  have h : ∀ (x : BitVec 4) (a b c : BitVec 3),
      (placed x 28 ||| placed a 6 ||| placed b 3 ||| placed c 0).extractLsb' 28 4 = x ∧
      (placed x 28 ||| placed a 6 ||| placed b 3 ||| placed c 0).extractLsb' 6 3 = a ∧
      (placed x 28 ||| placed a 6 ||| placed b 3 ||| placed c 0).extractLsb' 3 3 = b ∧
      (placed x 28 ||| placed a 6 ||| placed b 3 ||| placed c 0).extractLsb' 0 3 = c := by
    intro x a b c
    refine ⟨?_, ?_, ?_, ?_⟩ <;>
    · apply BitVec.eq_of_getLsbD_eq
      intro i hi
      interval_cases i <;> simp [placed]
  obtain ⟨h1, h2, h3, h4⟩ := h op (BitVec.ofFin (w := 3) a) (BitVec.ofFin (w := 3) b) (BitVec.ofFin (w := 3) c)
  exact ⟨h1, congrArg BitVec.toFin h2, congrArg BitVec.toFin h3, congrArg BitVec.toFin h4⟩

/-- The three fields of the immediate format do not overlap. -/
theorem encodeImm_fields (op : BitVec 4) (a : Reg) (imm : Nat) :
    opField (encodeImm op a imm) = op ∧ aImmField (encodeImm op a imm) = a ∧
      immField (encodeImm op a imm) = BitVec.ofNat 25 imm := by
  have h : ∀ (x : BitVec 4) (a : BitVec 3) (m : BitVec 25),
      (placed x 28 ||| placed a 25 ||| placed m 0).extractLsb' 28 4 = x ∧
      (placed x 28 ||| placed a 25 ||| placed m 0).extractLsb' 25 3 = a ∧
      (placed x 28 ||| placed a 25 ||| placed m 0).extractLsb' 0 25 = m := by
    intro x a m
    refine ⟨?_, ?_, ?_⟩ <;>
    · apply BitVec.eq_of_getLsbD_eq
      intro i hi
      interval_cases i <;> simp [placed]
  obtain ⟨h1, h2, h3⟩ := h op (BitVec.ofFin (w := 3) a) (BitVec.ofNat 25 imm)
  exact ⟨h1, congrArg BitVec.toFin h2, h3⟩

/-- The decoder answers well-formed instructions only. -/
theorem decode_wf (w : Word) : (decode w).wf = true := by
  unfold decode
  split <;> simp [Instr.wf, immFits]
  exact (immField w).isLt

/-! ### The Bit Codec -/

/-- The bits of a field's mask. -/
theorem CodecField.getLsbD_mask (f : CodecField) (i : Nat) (hi : i < 64) :
    f.mask.getLsbD i = (decide (f.offset ≤ i) && decide (i < f.offset + f.width)) := by
  have h1 := f.width_pos
  have h2 := f.fits
  simp only [CodecField.mask, BitVec.getLsbD_shiftLeft, BitVec.getLsbD_ushiftRight, BitVec.getLsbD_allOnes, hi,
    decide_true, Bool.true_and]
  by_cases a : f.offset ≤ i <;> by_cases b : i < f.offset + f.width <;> simp [a, b] <;> omega

end Sys2Proof
end

