-- ==== Sys2Proof/Laws/Ops.lean ====
section
/-! SUPPORT. One lemma per shared operation, saying once what it can do; the provers cite these instead of unfolding. -/

namespace Sys2Proof.Machine

variable (s : State)

/-! ### Checks and the end of an instruction -/

@[simp] theorem State.conclude_ok (t : State) : s.conclude (.ok t) = t := rfl
@[simp] theorem State.conclude_error (c : Cause) : s.conclude (.error c) = s.raiseFault c := rfl
@[simp] theorem checked_none (e : Except Cause State) : checked none e = e := rfl
@[simp] theorem checked_some (c : Cause) (e : Except Cause State) : checked (some c) e = .error c := rfl

/-- An instruction ends with its effect or with a fault and nothing else changed (60_exceptions.md rule R223). -/
theorem State.conclude_cases (r : Except Cause State) :
    (∃ t, r = .ok t ∧ s.conclude r = t) ∨ (∃ c, r = .error c ∧ s.conclude r = s.raiseFault c) := by
  cases r with
  | ok t => exact .inl ⟨t, rfl, rfl⟩
  | error c => exact .inr ⟨c, rfl, rfl⟩

theorem checked_eq_ok (k : Option Cause) (e : Except Cause State) (t : State) :
    checked k e = .ok t ↔ k = none ∧ e = .ok t := by
  cases k <;> simp

theorem checked_eq_error (k : Option Cause) (e : Except Cause State) (c : Cause) :
    checked k e = .error c ↔ k = some c ∨ (k = none ∧ e = .error c) := by
  cases k <;> simp

/-! ### Lookup and bounds -/

/-- An id is mapped: below `TLEN` and not on the free-list (10_state.md rule R44). -/
theorem State.mapped_iff (id : Word) : s.mapped id = true ↔ id.toNat < s.tlen ∧ id ∉ s.freeList := by
  simp [State.mapped]

/-- `SegCheck` passes exactly on a mapped id (20_memory.md rule R63). -/
theorem State.segCheck_none_iff (id : Word) : s.segCheck id = none ↔ s.mapped id = true := by
  rw [State.mapped_iff]
  unfold State.segCheck
  split
  · simp; omega
  · split
    · simp_all
    · simp_all

theorem State.segCheck_of_mapped (id : Word) (h : s.mapped id = true) : s.segCheck id = none :=
  (s.segCheck_none_iff id).2 h

theorem State.segCheck_of_out_of_range (id : Word) (h : s.tlen ≤ id.toNat) :
    s.segCheck id = some .segmentIdOutOfRange := by
  simp [State.segCheck, h]

theorem State.segCheck_of_unmapped (id : Word) (h : id.toNat < s.tlen) (hf : id ∈ s.freeList) :
    s.segCheck id = some .segmentUnmapped := by
  have h' : ¬ s.tlen ≤ id.toNat := by omega
  simp [State.segCheck, h', hf]

theorem State.accessCheck_none_iff (id : Word) (off : Nat) :
    s.accessCheck id off = none ↔ s.mapped id = true ∧ off < s.segLen id := by
  rw [← State.segCheck_none_iff]
  unfold State.accessCheck
  cases h : s.segCheck id with
  | some c => simp
  | none =>
    simp only [true_and]
    split
    · simp; omega
    · simp; omega

/-- The faults of an access, in the order of R235. -/
theorem State.accessCheck_of_out_of_range (id : Word) (off : Nat) (h : s.tlen ≤ id.toNat) :
    s.accessCheck id off = some .segmentIdOutOfRange := by
  simp [State.accessCheck, s.segCheck_of_out_of_range id h]

theorem State.accessCheck_of_unmapped (id : Word) (off : Nat) (h : id.toNat < s.tlen) (hf : id ∈ s.freeList) :
    s.accessCheck id off = some .segmentUnmapped := by
  simp [State.accessCheck, s.segCheck_of_unmapped id h hf]

theorem State.accessCheck_of_offset (id : Word) (off : Nat) (h : s.mapped id = true) (ho : s.segLen id ≤ off) :
    s.accessCheck id off = some .offsetOutOfRange := by
  simp [State.accessCheck, s.segCheck_of_mapped id h, ho]

/-- `MemRead` answers the word when both checks pass (R66). -/
theorem State.memRead_ok (id : Word) (off : Nat) (h : s.mapped id = true) (ho : off < s.segLen id) :
    s.memRead id off = .ok ((s.seg id).word off) := by
  simp [State.memRead, (s.accessCheck_none_iff id off).2 ⟨h, ho⟩]

theorem State.memRead_eq_ok_iff (id : Word) (off : Nat) (v : Word) :
    s.memRead id off = .ok v ↔ s.mapped id = true ∧ off < s.segLen id ∧ (s.seg id).word off = v := by
  unfold State.memRead
  cases h : s.accessCheck id off with
  | some c =>
    constructor
    · intro e; cases e
    · rintro ⟨h1, h2, _⟩
      rw [(s.accessCheck_none_iff id off).2 ⟨h1, h2⟩] at h
      cases h
  | none =>
    obtain ⟨h1, h2⟩ := (s.accessCheck_none_iff id off).1 h
    constructor
    · intro e; cases e; exact ⟨h1, h2, rfl⟩
    · rintro ⟨_, _, rfl⟩; rfl

/-- `MemWrite` changes one word when both checks pass (R67). -/
theorem State.memWrite_ok (id : Word) (off : Nat) (v : Word) (h : s.mapped id = true) (ho : off < s.segLen id) :
    s.memWrite id off v = .ok (s.setSeg id ((s.seg id).put off v)) := by
  simp [State.memWrite, (s.accessCheck_none_iff id off).2 ⟨h, ho⟩]

theorem State.memWrite_eq_ok (id : Word) (off : Nat) (v : Word) (t : State) (h : s.memWrite id off v = .ok t) :
    s.mapped id = true ∧ off < s.segLen id ∧ t = s.setSeg id ((s.seg id).put off v) := by
  obtain ⟨h1, h2⟩ := (checked_eq_ok _ _ _).1 h
  obtain ⟨h3, h4⟩ := (s.accessCheck_none_iff id off).1 h1
  exact ⟨h3, h4, by cases h2; rfl⟩

/-- Reading through two states whose table looks the same at an id gives the same answer. -/
theorem State.memRead_of_same (t : State) (id : Word) (off : Nat) (h1 : t.segCheck id = s.segCheck id) (h2 : t.seg id = s.seg id) :
    t.memRead id off = s.memRead id off := by
  unfold State.memRead State.accessCheck State.segLen
  rw [h1, h2]

/-! ### Changing the table -/

@[simp] theorem State.tlen_setSegs (m : Memory) : (s.setSegs m).tlen = m.length := rfl
@[simp] theorem State.tlen_setFreeList (fl : List Word) : (s.setFreeList fl).tlen = s.tlen := rfl
@[simp] theorem State.seg_setFreeList (fl : List Word) (id : Word) : (s.setFreeList fl).seg id = s.seg id := rfl
@[simp] theorem State.segLen_setFreeList (fl : List Word) (id : Word) : (s.setFreeList fl).segLen id = s.segLen id := rfl

@[simp] theorem State.tlen_setSeg (id : Word) (g : Segment) : (s.setSeg id g).tlen = s.tlen := by
  simp [State.setSeg, State.tlen]

@[simp] theorem State.freeList_setSeg (id : Word) (g : Segment) : (s.setSeg id g).freeList = s.freeList := rfl

@[simp] theorem State.mapped_setSeg (id : Word) (g : Segment) (j : Word) : (s.setSeg id g).mapped j = s.mapped j := by
  rw [Bool.eq_iff_iff, State.mapped_iff, State.mapped_iff, State.tlen_setSeg, State.freeList_setSeg]

@[simp] theorem State.segCheck_setSeg (id : Word) (g : Segment) (j : Word) : (s.setSeg id g).segCheck j = s.segCheck j := by
  unfold State.segCheck
  rw [State.tlen_setSeg]
  rfl

theorem State.seg_setSeg_self (id : Word) (g : Segment) (h : id.toNat < s.tlen) : (s.setSeg id g).seg id = g := by
  have h' : id.toNat < s.segs.length := h
  simp [State.seg, State.setSeg, State.setSegs, h']

theorem State.seg_setSeg_ne (id : Word) (g : Segment) (j : Word) (h : j ≠ id) : (s.setSeg id g).seg j = s.seg j := by
  have h' : id.toNat ≠ j.toNat := fun e => h (BitVec.eq_of_toNat_eq e.symm)
  simp [State.seg, State.setSeg, State.setSegs, h']

/-- Changing one position leaves every address of the others as it reads (20_memory.md rule R67). -/
theorem State.memRead_setSeg_ne (id : Word) (g : Segment) (j : Word) (off : Nat) (h : j ≠ id) :
    (s.setSeg id g).memRead j off = s.memRead j off :=
  s.memRead_of_same _ j off (s.segCheck_setSeg id g j) (s.seg_setSeg_ne id g j h)

theorem State.setSeg_wf (id : Word) (g : Segment) (hm : Memory.wf s.segs = true) (hg : g.wf = true) :
    Memory.wf (s.setSeg id g).segs = true := Memory.wf_set s.segs id.toNat g hm hg

theorem State.seg_wf (id : Word) (hm : Memory.wf s.segs = true) : (s.seg id).wf = true := Memory.wf_getD s.segs id.toNat hm

/-! ### Every memory operation keeps the canonical form -/

theorem State.memWrite_keeps_wf (id : Word) (off : Nat) (v : Word) (t : State) (hm : Memory.wf s.segs = true)
    (h : s.memWrite id off v = .ok t) : Memory.wf t.segs = true := by
  obtain ⟨_, ho, rfl⟩ := s.memWrite_eq_ok id off v t h
  exact s.setSeg_wf id _ hm (Segment.put_wf _ _ _ (s.seg_wf id hm) ho)

theorem State.allocated_keeps_wf (n : Nat) (hn : n ≤ maxSegLen) (hm : Memory.wf s.segs = true) :
    Memory.wf (s.allocated n).2.segs = true := by
  unfold State.allocated
  cases s.freeList with
  | nil => exact Memory.wf_append s.segs _ hm (Segment.zero_wf n hn)
  | cons id rest => exact State.setSeg_wf (s.setFreeList rest) id _ hm (Segment.zero_wf n hn)

theorem State.release_keeps_wf (id : Word) (hm : Memory.wf s.segs = true) : Memory.wf (s.release id).segs = true :=
  State.setSeg_wf (s.setFreeList (id :: s.freeList)) id _ hm Segment.empty_wf

theorem State.duplicateInto0_keeps_wf (id : Word) (t : State) (hm : Memory.wf s.segs = true)
    (h : s.duplicateInto0 id = .ok t) : Memory.wf t.segs = true := by
  obtain ⟨_, h2⟩ := (checked_eq_ok _ _ _).1 h
  cases h2
  exact s.setSeg_wf 0 _ hm (s.seg_wf id hm)

/-! ### The operations, inverted -/

theorem State.allocate_eq_ok (n : Nat) (r : Word × State) (h : s.allocate n = .ok r) :
    s.allocateCheck n = none ∧ r = s.allocated n := by
  unfold State.allocate at h
  cases hc : s.allocateCheck n with
  | some c => rw [hc] at h; cases h
  | none => rw [hc] at h; cases h; exact ⟨rfl, rfl⟩

theorem State.allocate_of_check (n : Nat) (h : s.allocateCheck n = none) : s.allocate n = .ok (s.allocated n) := by
  simp [State.allocate, h]

theorem State.allocateCheck_cases (n : Nat) : s.allocateCheck n = none ∨ s.allocateCheck n = some .resourceExhausted := by
  unfold State.allocateCheck
  split
  · exact .inr rfl
  · exact .inl rfl

/-- The capacity check of MAP passes (R75). -/
theorem State.allocateCheck_none_iff (n : Nat) :
    s.allocateCheck n = none ↔
      (s.freeList = [] → s.tlen < s.cfg.nsegMax) ∧ ∀ m, s.cfg.memWordsMax = some m → s.mappedWords + n ≤ m := by
  unfold State.allocateCheck overMemory
  cases hm : s.cfg.memWordsMax with
  | none => simp [List.isEmpty_iff]
  | some m => simp [List.isEmpty_iff]

theorem State.duplicateCheck_cases (id : Word) :
    s.duplicateCheck id = none ∨ s.duplicateCheck id = some .resourceExhausted := by
  unfold State.duplicateCheck
  split
  · exact .inr rfl
  · exact .inl rfl

theorem State.duplicateCheck_none_iff (id : Word) :
    s.duplicateCheck id = none ↔
      ∀ m, s.cfg.memWordsMax = some m → s.mappedWords - s.segLen 0#32 + s.segLen id ≤ m := by
  unfold State.duplicateCheck overMemory
  cases hm : s.cfg.memWordsMax with
  | none => simp
  | some m => simp

/-- Segment 0 becomes the copy (R73). -/
theorem State.duplicateInto0_of_check (id : Word) (h : s.duplicateCheck id = none) :
    s.duplicateInto0 id = .ok (s.setSeg 0#32 (s.seg id)) := by
  simp [State.duplicateInto0, h]

/-- The two ways an I/O instruction ends: it completes, or the machine waits in it (45_io.md rule R196). -/
theorem State.tryIo_cases (w : IoWait) :
    (∃ c, w = .input c ∧ s.inputReady = true ∧ s.tryIo w = s.completeInput c) ∨
    (∃ b, w = .output b ∧ s.outReady = true ∧ s.tryIo w = s.completeOutput b) ∨
    (s.tryIo w = s.setWait (some w)) := by
  cases w with
  | input c =>
    by_cases h : s.inputReady = true
    · exact .inl ⟨c, rfl, h, by simp [State.tryIo, h]⟩
    · exact .inr (.inr (by simp [State.tryIo, h]))
  | output b =>
    by_cases h : s.outReady = true
    · exact .inr (.inl ⟨b, rfl, h, by simp [State.tryIo, h]⟩)
    · exact .inr (.inr (by simp [State.tryIo, h]))

/-- Taking an answer from the device changes the input port alone (R194). -/
theorem State.consumeInput_eq : ∃ p, s.consumeInput = s.setInput p := by
  unfold State.consumeInput
  split
  · exact ⟨s.input, rfl⟩
  · exact ⟨_, rfl⟩

/-! ### The step -/

/-- What one pass of the sequencer can do (10_state.md rules R30, R35, R36, 45_io.md rule R196). -/
theorem State.sequence_cases :
    (s.status ≠ .running ∧ s.sequence = .ended s) ∨
    (s.status = .running ∧ ∃ w, s.wait = some w ∧ s.sequence = .ended (s.tryIo w)) ∨
    (s.status = .running ∧ s.wait = none ∧ s.pc = s.segLen 0#32 ∧ s.sequence = .ended (s.stopRun .endOfProgram)) ∨
    (s.status = .running ∧ s.wait = none ∧ s.segLen 0#32 < s.pc ∧ s.sequence = .ended s.pastEnd) ∨
    (s.status = .running ∧ s.wait = none ∧ s.pc < s.segLen 0#32 ∧
      ∃ c, s.memRead 0#32 s.pc = .error c ∧ s.sequence = .ended (s.raiseFault c)) ∨
    (s.status = .running ∧ s.wait = none ∧ s.pc < s.segLen 0#32 ∧
      ∃ w, s.memRead 0#32 s.pc = .ok w ∧ s.sequence = .word w s.advancePc) := by
  unfold State.sequence
  rcases hs : s.status with _ | _ | _
  · rcases hw : s.wait with _ | w
    · simp only [State.fetch]
      rcases Nat.lt_trichotomy s.pc (s.segLen 0#32) with h | h | h
      · rw [if_neg (by omega), if_neg (by omega)]
        rcases hr : s.memRead 0#32 s.pc with c | w
        · exact .inr (.inr (.inr (.inr (.inl ⟨trivial, trivial, h, c, rfl, rfl⟩))))
        · exact .inr (.inr (.inr (.inr (.inr ⟨trivial, trivial, h, w, rfl, rfl⟩))))
      · rw [if_pos h]
        exact .inr (.inr (.inl ⟨trivial, trivial, h, rfl⟩))
      · rw [if_neg (by omega), if_pos h]
        exact .inr (.inr (.inr (.inl ⟨trivial, trivial, h, rfl⟩)))
    · exact .inr (.inl ⟨rfl, w, rfl, rfl⟩)
  · exact .inl ⟨by decide, rfl⟩
  · exact .inl ⟨by decide, rfl⟩

/-- A step ends where the sequencer ended it, or runs the word it fetched. -/
theorem step_of_ended (t : State) (h : s.sequence = .ended t) : step s = .next t := by
  simp [step, h]

theorem step_of_word (w : Word) (t : State) (h : s.sequence = .word w t) : step s = exec (decode w) t := by
  simp [step, h]

end Sys2Proof.Machine
end

