-- ==== Sys2Proof/Laws/Table.lean ====
section
/-! SUPPORT. What each operation on the segment table does, said once: stores, allocation, release, the mapped total
(20_memory.md rules R66 to R75), and that each keeps the invariant. -/

namespace Sys2Proof

/-- The ranges of the parameters (00_scope.md rule R11). -/
theorem Config.wf_iff (c : Config) :
    c.wf = true ↔ 32 ≤ c.pcw ∧ c.idw = 32 ∧ 1 ≤ c.nsegMax ∧ c.nsegMax ≤ 2 ^ c.idw ∧ c.imageWordsMax ≤ maxSegLen ∧
      c.exitFault ≠ 0 := by
  simp [Config.wf, and_assoc]

end Sys2Proof

namespace Sys2Proof.Machine

variable (s : State)

/-! ### Consequences of the invariant -/

/-- Segment 0 is mapped (10_state.md rule R45). -/
theorem State.mapped_zero_of_inv (h : s.Inv) : s.mapped 0#32 = true := by
  rw [State.mapped_iff]
  refine ⟨h.tlen_pos, fun hm => ?_⟩
  have := (h.fl_range _ hm).1
  simp at this

theorem State.nsegMax_le_of_inv (h : s.Inv) : s.cfg.nsegMax ≤ 2 ^ 32 := by
  have := (Config.wf_iff _).1 h.cfg_wf
  rw [this.2.1] at this
  exact this.2.2.2.1

theorem State.tlen_le_of_inv (h : s.Inv) : s.tlen ≤ 2 ^ 32 := le_trans h.tlen_le (s.nsegMax_le_of_inv h)

theorem State.segLen_le_of_inv (h : s.Inv) (id : Word) : s.segLen id ≤ maxSegLen :=
  ((Segment.wf_iff _).1 (s.seg_wf id h.mem_wf)).1

/-- A change that leaves the table and the parameters alone keeps the invariant if it keeps STATUS, STOP_REASON, CAUSE and
the wait consistent. -/
theorem State.inv_of_same_table (t : State) (hi : s.Inv) (h1 : t.segs = s.segs) (h2 : t.freeList = s.freeList)
    (h3 : t.cfg = s.cfg) (h4 : t.stopReason = .noReason ↔ t.status ≠ .halted)
    (h5 : t.cause = .noCause ↔ t.status ≠ .faulted) (h6 : t.wait ≠ none → t.status = .running)
    (h7 : t.pc < 2 ^ 32) : t.Inv := by
  have ht : t.tlen = s.tlen := by simp [State.tlen, h1]
  have hs : ∀ id, t.seg id = s.seg id := fun id => by simp [State.seg, h1]
  refine ⟨by rw [h3]; exact hi.cfg_wf, by rw [ht]; exact hi.tlen_pos, by rw [ht, h3]; exact hi.tlen_le,
    by rw [h2, ht]; exact hi.fl_range, by rw [h2]; exact hi.fl_nodup, by rw [h1]; exact hi.mem_wf, ?_, h4, h5, h6, h7⟩
  rw [h2]
  intro id hid
  rw [hs]
  exact hi.fl_dropped id hid

theorem State.inv_raiseFault (c : Cause) (hi : s.Inv) (hr : s.status = .running) (hw : s.wait = none)
    (hc : c ≠ .noCause) : (s.raiseFault c).Inv :=
  s.inv_of_same_table _ hi rfl rfl rfl (by simp [hi.stop_reason, hr]) (by simp [hc]) (by simp [hw]) hi.pc_lt

theorem State.inv_stopRun (r : StopReason) (hi : s.Inv) (hr : s.status = .running) (hw : s.wait = none)
    (hc : r ≠ .noReason) : (s.stopRun r).Inv :=
  s.inv_of_same_table _ hi rfl rfl rfl (by simp [hc]) (by simp [hi.fault_cause, hr]) (by simp [hw])
    hi.pc_lt

/-- A value below 2^32 is held whole by the program counter, whatever PCW is (10_state.md rules R28, R34). -/
theorem State.pc_fits (v : Nat) (hc : s.cfg.wf = true) (hv : v < 2 ^ 32) : v % 2 ^ s.cfg.pcw = v :=
  Nat.mod_eq_of_lt (lt_of_lt_of_le hv (Nat.pow_le_pow_right (by decide) ((Config.wf_iff _).1 hc).1))

theorem State.inv_setPc (v : Nat) (hv : v < 2 ^ 32) (hi : s.Inv) : (s.setPc v).Inv :=
  s.inv_of_same_table _ hi rfl rfl rfl hi.stop_reason hi.fault_cause hi.wait_running
    (lt_of_le_of_lt (Nat.mod_le _ _) hv)

/-- A fetch increments `pc` inside segment 0 only, so it passes neither 2^32 - 1 nor PCW bits (10_state.md rule R34). -/
theorem State.inv_advancePc (hi : s.Inv) (h : s.pc < s.segLen 0#32) : s.advancePc.Inv :=
  s.inv_setPc _ (by have := s.segLen_le_of_inv hi 0#32; simp only [maxSegLen] at this; omega) hi

theorem State.advancePc_pc_of_inv (hi : s.Inv) (h : s.pc < s.segLen 0#32) : s.advancePc.pc = s.pc + 1 :=
  s.pc_fits _ hi.cfg_wf (by have := s.segLen_le_of_inv hi 0#32; simp only [maxSegLen] at this; omega)

theorem State.inv_setReg (a : Reg) (v : Word) (hi : s.Inv) : (s.setReg a v).Inv :=
  s.inv_of_same_table _ hi rfl rfl rfl hi.stop_reason hi.fault_cause hi.wait_running hi.pc_lt

theorem State.inv_setInput (p : InPort) (hi : s.Inv) : (s.setInput p).Inv :=
  s.inv_of_same_table _ hi rfl rfl rfl hi.stop_reason hi.fault_cause hi.wait_running hi.pc_lt

theorem State.inv_deviceOutReady (b : Bool) (hi : s.Inv) : (s.deviceOutReady b).Inv :=
  s.inv_of_same_table _ hi rfl rfl rfl hi.stop_reason hi.fault_cause hi.wait_running hi.pc_lt

/-- Replacing a mapped segment by a canonical one keeps the invariant. -/
theorem State.inv_setSeg (id : Word) (g : Segment) (hi : s.Inv) (hm : s.mapped id = true) (hg : g.wf = true) :
    (s.setSeg id g).Inv := by
  have hnf := ((s.mapped_iff id).1 hm).2
  refine ⟨hi.cfg_wf, by rw [State.tlen_setSeg]; exact hi.tlen_pos, by rw [State.tlen_setSeg]; exact hi.tlen_le,
    by rw [State.tlen_setSeg]; exact hi.fl_range, hi.fl_nodup, s.setSeg_wf id g hi.mem_wf hg, ?_, hi.stop_reason,
    hi.fault_cause, hi.wait_running, hi.pc_lt⟩
  intro j hj
  have hne : j ≠ id := fun e => hnf (e ▸ hj)
  rw [s.seg_setSeg_ne _ _ _ hne]
  exact hi.fl_dropped j hj

/-! ### Stores -/

/-- After a store the address reads as the value stored, every other address as before, and no length has changed
(20_memory.md rule R67). -/
theorem State.reads_after_store (id : Word) (off : Nat) (v : Word) (hw : Memory.wf s.segs = true) (h1 : s.mapped id = true)
    (h2 : off < s.segLen id) :
    (s.setSeg id ((s.seg id).put off v)).memRead id off = .ok v ∧
    (∀ j o, ¬(j = id ∧ o = off) →
      (s.setSeg id ((s.seg id).put off v)).memRead j o = s.memRead j o) ∧
    ∀ j, (s.setSeg id ((s.seg id).put off v)).segLen j = s.segLen j := by
  have hlt := ((s.mapped_iff id).1 h1).1
  have hseg := s.seg_setSeg_self id ((s.seg id).put off v) hlt
  have hlen : ∀ j, (s.setSeg id ((s.seg id).put off v)).segLen j = s.segLen j := by
    intro j
    by_cases hj : j = id
    · subst hj; simp [State.segLen, hseg]
    · simp only [State.segLen]; rw [s.seg_setSeg_ne _ _ _ hj]
  refine ⟨?_, ?_, hlen⟩
  · rw [State.memRead_eq_ok_iff]
    refine ⟨by simpa using h1, by rw [hlen]; exact h2, ?_⟩
    rw [hseg]
    exact Segment.word_put_self _ _ _ (s.seg_wf id hw)
  · intro j o hne
    by_cases hj : j = id
    · subst hj
      have ho : o ≠ off := fun e => hne ⟨rfl, e⟩
      unfold State.memRead State.accessCheck
      rw [s.segCheck_setSeg, hlen, hseg, Segment.word_put_ne _ _ _ _ ho]
    · exact s.memRead_setSeg_ne _ _ _ _ hj

/-- A zero-filled segment reads as zeros (R68). -/
theorem State.memRead_zero (id : Word) (off n : Nat) (h : s.mapped id = true) (hs : s.seg id = Segment.zero n)
    (ho : off < n) : s.memRead id off = .ok 0#32 := by
  rw [State.memRead_eq_ok_iff]
  refine ⟨h, ?_, ?_⟩ <;> simp [State.segLen, hs, ho]

/-! ### Allocation -/

/-- An allocation changes the table and nothing else. -/
theorem State.allocated_eq (n : Nat) :
    (s.allocated n).2 = { s with segs := (s.allocated n).2.segs, freeList := (s.allocated n).2.freeList } := by
  unfold State.allocated
  cases s.freeList <;> rfl

/-- What an allocation does: which id, what becomes of the table, and that no other position changes (R68, R69). -/
theorem State.allocated_spec (n : Nat) (hi : s.Inv) (hcap : s.freeList = [] → s.tlen < s.cfg.nsegMax) :
    (∀ top rest, s.freeList = top :: rest →
      (s.allocated n).1 = top ∧ (s.allocated n).2.freeList = rest ∧ (s.allocated n).2.tlen = s.tlen) ∧
    (s.freeList = [] →
      (s.allocated n).1.toNat = s.tlen ∧ (s.allocated n).2.freeList = [] ∧ (s.allocated n).2.tlen = s.tlen + 1) ∧
    (s.allocated n).1 ≠ 0#32 ∧ s.mapped (s.allocated n).1 = false ∧
    (s.allocated n).2.mapped (s.allocated n).1 = true ∧
    (s.allocated n).2.seg (s.allocated n).1 = Segment.zero n ∧
    ∀ j, j ≠ (s.allocated n).1 →
      (s.allocated n).2.segCheck j = s.segCheck j ∧ (s.allocated n).2.seg j = s.seg j := by
  have hnm := s.nsegMax_le_of_inv hi
  rcases hfl : s.freeList with _ | ⟨top, rest⟩
  · have e : s.allocated n = (BitVec.ofNat 32 s.tlen, s.setSegs (s.segs ++ [Segment.zero n])) := by
      simp [State.allocated, hfl]
    have hlt := hcap hfl
    have h1 := hi.tlen_pos
    rw [e]
    generalize hid : BitVec.ofNat 32 s.tlen = id
    dsimp only
    have hidn : id.toNat = s.tlen := by rw [← hid]; simp; omega
    have htl : (s.setSegs (s.segs ++ [Segment.zero n])).tlen = s.tlen + 1 := by simp [State.tlen]
    have htf : (s.setSegs (s.segs ++ [Segment.zero n])).freeList = [] := hfl
    refine ⟨by simp, fun _ => ⟨hidn, htf, htl⟩, ?_, ?_, ?_, ?_, ?_⟩
    · intro e0; rw [e0] at hidn; simp at hidn; omega
    · rw [Bool.eq_false_iff, Ne, State.mapped_iff]; omega
    · rw [State.mapped_iff, htl, htf]; simp; omega
    · simp only [State.seg, State.setSegs, hidn]; simp [State.tlen]
    · intro j hj
      have hjn : j.toNat ≠ s.tlen := fun e0 => hj (BitVec.eq_of_toNat_eq (by omega))
      constructor
      · unfold State.segCheck
        rw [htl, htf, hfl]
        by_cases h : s.tlen ≤ j.toNat
        · rw [if_pos h, if_pos (by omega)]
        · rw [if_neg h, if_neg (by omega)]
      · simp only [State.seg, State.setSegs]
        by_cases h : j.toNat < s.segs.length
        · rw [List.getD_eq_getElem?_getD, List.getD_eq_getElem?_getD, List.getElem?_append_left h]
        · have : s.segs.length ≠ j.toNat := fun e0 => hjn e0.symm
          rw [List.getD_eq_getElem?_getD, List.getD_eq_getElem?_getD, List.getElem?_eq_none (by simp; omega),
            List.getElem?_eq_none (by omega)]
  · have e : s.allocated n = (top, (s.setFreeList rest).setSeg top (Segment.zero n)) := by
      simp [State.allocated, hfl]
    have hr := hi.fl_range top (by simp [hfl])
    have hnd := hi.fl_nodup
    rw [hfl, List.nodup_cons] at hnd
    rw [e]
    dsimp only
    have htl : ((s.setFreeList rest).setSeg top (Segment.zero n)).tlen = s.tlen := by simp
    have htf : ((s.setFreeList rest).setSeg top (Segment.zero n)).freeList = rest := rfl
    refine ⟨?_, by simp, ?_, ?_, ?_, ?_, ?_⟩
    · intro a b e0; cases e0; exact ⟨rfl, htf, htl⟩
    · intro e0; rw [e0] at hr; simp at hr
    · rw [Bool.eq_false_iff, Ne, State.mapped_iff, hfl]; simp
    · rw [State.mapped_iff, htl, htf]; exact ⟨hr.2, hnd.1⟩
    · exact State.seg_setSeg_self _ _ _ hr.2
    · intro j hj
      constructor
      · unfold State.segCheck
        rw [htl, htf, hfl]; simp [hj]
      · exact State.seg_setSeg_ne _ _ _ _ hj

theorem State.inv_allocated (n : Nat) (hi : s.Inv) (hn : n ≤ maxSegLen)
    (hcap : s.freeList = [] → s.tlen < s.cfg.nsegMax) : (s.allocated n).2.Inv := by
  obtain ⟨a1, a2, _, _, a5, _, a7⟩ := s.allocated_spec n hi hcap
  have a8 := s.allocated_eq n
  have hwf := s.allocated_keeps_wf n hn hi.mem_wf
  generalize (s.allocated n).1 = id at *
  generalize (s.allocated n).2 = t at *
  have hcfg : t.cfg = s.cfg := by rw [a8]
  have hst : t.status = s.status := by rw [a8]
  have hsr : t.stopReason = s.stopReason := by rw [a8]
  have hca : t.cause = s.cause := by rw [a8]
  have hwa : t.wait = s.wait := by rw [a8]
  have hpc : t.pc = s.pc := by rw [a8]
  have hfl : ∀ j ∈ t.freeList, j ∈ s.freeList ∧ j ≠ id := by
    intro j hj
    refine ⟨?_, fun e => ?_⟩
    · rcases hf : s.freeList with _ | ⟨top, rest⟩
      · rw [(a2 hf).2.1] at hj; exact hj
      · rw [(a1 _ _ hf).2.1] at hj; exact List.mem_cons_of_mem _ hj
    · exact ((t.mapped_iff id).1 a5).2 (e ▸ hj)
  have htl : s.tlen ≤ t.tlen ∧ t.tlen ≤ s.cfg.nsegMax ∧ t.freeList.Nodup := by
    have := hi.tlen_le
    have hnd := hi.fl_nodup
    rcases hf : s.freeList with _ | ⟨top, rest⟩
    · have h1 := a2 hf
      have h2 := hcap hf
      rw [h1.2.1]
      refine ⟨by omega, by omega, List.nodup_nil⟩
    · have h1 := a1 _ _ hf
      rw [h1.2.1]
      rw [hf, List.nodup_cons] at hnd
      refine ⟨by omega, by omega, hnd.2⟩
  refine ⟨by rw [hcfg]; exact hi.cfg_wf, le_trans hi.tlen_pos htl.1, by rw [hcfg]; exact htl.2.1, ?_, htl.2.2, hwf, ?_,
    by rw [hst, hsr]; exact hi.stop_reason, by rw [hst, hca]; exact hi.fault_cause,
    by rw [hst, hwa]; exact hi.wait_running, by rw [hpc]; exact hi.pc_lt⟩
  · intro j hj
    have := hi.fl_range j (hfl j hj).1
    omega
  · intro j hj
    rw [(a7 j (hfl j hj).2).2]
    exact hi.fl_dropped j (hfl j hj).1

/-! ### Release -/

@[simp] theorem State.tlen_release (id : Word) : (s.release id).tlen = s.tlen := by simp [State.release]
@[simp] theorem State.freeList_release (id : Word) : (s.release id).freeList = id :: s.freeList := rfl

/-- After a release the id is unmapped (R70). -/
theorem State.segCheck_release_self (id : Word) (h : id.toNat < s.tlen) :
    (s.release id).segCheck id = some .segmentUnmapped :=
  State.segCheck_of_unmapped _ _ (by simpa using h) (by simp)

/-- A release leaves every other id as it is (R70). -/
theorem State.segCheck_release_ne (id j : Word) (h : j ≠ id) : (s.release id).segCheck j = s.segCheck j := by
  unfold State.segCheck
  rw [State.tlen_release, State.freeList_release]
  simp [h]

theorem State.seg_release_self (id : Word) (h : id.toNat < s.tlen) : (s.release id).seg id = Segment.empty :=
  State.seg_setSeg_self _ _ _ h

theorem State.seg_release_ne (id j : Word) (h : j ≠ id) : (s.release id).seg j = s.seg j :=
  State.seg_setSeg_ne _ _ _ _ h

theorem State.inv_release (id : Word) (hi : s.Inv) (h1 : s.mapped id = true) (h2 : id ≠ 0#32) : (s.release id).Inv := by
  obtain ⟨hlt, hnf⟩ := (s.mapped_iff id).1 h1
  have hpos : 1 ≤ id.toNat := by
    rcases Nat.eq_zero_or_pos id.toNat with e | e
    · exact absurd (BitVec.eq_of_toNat_eq (by simpa using e)) h2
    · exact e
  refine ⟨hi.cfg_wf, ?_, ?_, ?_, ?_, s.release_keeps_wf id hi.mem_wf, ?_, hi.stop_reason, hi.fault_cause,
    hi.wait_running, hi.pc_lt⟩
  · rw [State.tlen_release]; exact hi.tlen_pos
  · rw [State.tlen_release]; exact hi.tlen_le
  · rw [State.freeList_release, State.tlen_release]
    intro j hj
    rcases List.mem_cons.1 hj with e | e
    · subst e; exact ⟨hpos, hlt⟩
    · exact hi.fl_range j e
  · rw [State.freeList_release, List.nodup_cons]; exact ⟨hnf, hi.fl_nodup⟩
  · rw [State.freeList_release]
    intro j hj
    rcases List.mem_cons.1 hj with e | e
    · subst e; exact s.seg_release_self _ hlt
    · have hne : j ≠ id := fun e' => hnf (e' ▸ e)
      rw [s.seg_release_ne _ _ hne]
      exact hi.fl_dropped j e

/-! ### The total of mapped words (10_state.md rule R49) -/

/-- The words position `j` counts for. -/
def State.weight (j : Nat) : Nat :=
  if s.mapped (BitVec.ofNat 32 j) = true then s.segLen (BitVec.ofNat 32 j) else 0

theorem State.mappedWords_eq_sum : s.mappedWords = ((List.range s.tlen).map s.weight).sum := by
  unfold State.mappedWords
  induction (List.range s.tlen) with
  | nil => rfl
  | cons a l ih =>
    simp only [List.filter_cons, List.map_cons, List.sum_cons, ← ih, State.weight]
    by_cases h : s.mapped (BitVec.ofNat 32 a) = true <;> simp [h]

/-- Changing a sum at one place. -/
theorem sum_range_update (n k : Nat) (f g : Nat → Nat) (hk : k < n) (h : ∀ j, j < n → j ≠ k → g j = f j) :
    ((List.range n).map g).sum + f k = ((List.range n).map f).sum + g k := by
  induction n with
  | zero => omega
  | succ n ih =>
    simp only [List.range_succ, List.map_append, List.sum_append, List.map_cons, List.map_nil, List.sum_cons,
      List.sum_nil]
    by_cases e : k = n
    · subst e
      have : (List.range k).map g = (List.range k).map f := by
        apply List.map_congr_left
        intro j hj
        have := List.mem_range.1 hj
        exact h j (by omega) (by omega)
      rw [this]
      omega
    · have := ih (by omega) (fun j hj => h j (by omega))
      have := h n (by omega) (fun x => e x.symm)
      omega

theorem State.weight_congr (t : State) (j : Nat)
    (h1 : t.segCheck (BitVec.ofNat 32 j) = s.segCheck (BitVec.ofNat 32 j))
    (h2 : t.seg (BitVec.ofNat 32 j) = s.seg (BitVec.ofNat 32 j)) : t.weight j = s.weight j := by
  have : t.mapped (BitVec.ofNat 32 j) = s.mapped (BitVec.ofNat 32 j) := by
    rw [Bool.eq_iff_iff, ← State.segCheck_none_iff, ← State.segCheck_none_iff, h1]
  simp [State.weight, this, State.segLen, h2]

theorem State.mappedWords_congr (t : State) (h1 : t.segs = s.segs) (h2 : t.freeList = s.freeList) :
    t.mappedWords = s.mappedWords := by
  have ht : t.tlen = s.tlen := by simp [State.tlen, h1]
  have hm : ∀ j, t.mapped j = s.mapped j := fun j => by simp [State.mapped, ht, h2]
  have hs : ∀ j, t.segLen j = s.segLen j := fun j => by simp [State.segLen, State.seg, h1]
  simp [State.mappedWords, ht, hm, hs]

/-- Replacing a mapped segment exchanges its words in the total. -/
theorem State.mappedWords_setSeg (id : Word) (g : Segment) (hi : s.Inv) (hm : s.mapped id = true) :
    (s.setSeg id g).mappedWords + s.segLen id = s.mappedWords + g.len := by
  have hb := s.tlen_le_of_inv hi
  have hid := ((s.mapped_iff id).1 hm).1
  have hoff : ∀ j, j < s.tlen → j ≠ id.toNat → (s.setSeg id g).weight j = s.weight j := by
    intro j hj hne
    have : BitVec.ofNat 32 j ≠ id := by intro e; apply hne; rw [← e]; simp; omega
    exact s.weight_congr _ j (s.segCheck_setSeg _ _ _) (s.seg_setSeg_ne _ _ _ this)
  have key := sum_range_update s.tlen id.toNat s.weight (s.setSeg id g).weight hid hoff
  rw [State.mappedWords_eq_sum, State.mappedWords_eq_sum, State.tlen_setSeg]
  have h1 : s.weight id.toNat = s.segLen id := by simp [State.weight, hm]
  have h2 : (s.setSeg id g).weight id.toNat = g.len := by
    simp [State.weight, hm, State.segLen, s.seg_setSeg_self _ g hid]
  omega

theorem State.segLen_le_mappedWords (id : Word) (hi : s.Inv) (hm : s.mapped id = true) :
    s.segLen id ≤ s.mappedWords := by
  have := s.mappedWords_setSeg id Segment.empty hi hm
  simp at this
  omega

/-- An allocation adds its words to the total. -/
theorem State.mappedWords_allocated (n : Nat) (hi : s.Inv) (hcap : s.freeList = [] → s.tlen < s.cfg.nsegMax) :
    (s.allocated n).2.mappedWords = s.mappedWords + n := by
  obtain ⟨a1, a2, _, a4, a5, a6, a7⟩ := s.allocated_spec n hi hcap
  generalize (s.allocated n).1 = id at *
  generalize (s.allocated n).2 = t at *
  have hb := s.tlen_le_of_inv hi
  have hn := s.nsegMax_le_of_inv hi
  have hb2 : t.tlen ≤ 2 ^ 32 := by
    rcases hf : s.freeList with _ | ⟨top, rest⟩
    · have h1 := a2 hf
      have h2 := hcap hf
      omega
    · have h1 := a1 _ _ hf
      omega
  have hoff : ∀ j, j < t.tlen → j ≠ id.toNat → t.weight j = s.weight j := by
    intro j hj hne
    have : BitVec.ofNat 32 j ≠ id := by intro e; apply hne; rw [← e]; simp; omega
    exact s.weight_congr t j (a7 _ this).1 (a7 _ this).2
  have hs0 : s.weight id.toNat = 0 := by simp [State.weight, a4]
  have ht0 : t.weight id.toNat = n := by simp [State.weight, a5, State.segLen, a6]
  have key := sum_range_update t.tlen id.toNat s.weight t.weight ((t.mapped_iff id).1 a5).1 hoff
  rw [State.mappedWords_eq_sum, State.mappedWords_eq_sum]
  have : ((List.range t.tlen).map s.weight).sum = ((List.range s.tlen).map s.weight).sum := by
    rcases hf : s.freeList with _ | ⟨top, rest⟩
    · obtain ⟨b1, _, b3⟩ := a2 hf
      rw [b3, List.range_succ]
      simp
      rw [← b1]
      exact hs0
    · rw [(a1 _ _ hf).2.2]
  omega

/-- A release takes words out of the total and adds none. -/
theorem State.mappedWords_release_le (id : Word) (hi : s.Inv) : (s.release id).mappedWords ≤ s.mappedWords := by
  have hb := s.tlen_le_of_inv hi
  have hle : ∀ j, j < s.tlen → (s.release id).weight j ≤ s.weight j := by
    intro j hj
    by_cases e : BitVec.ofNat 32 j = id
    · have hm : (s.release id).mapped (BitVec.ofNat 32 j) = false := by
        rw [Bool.eq_false_iff, Ne, State.mapped_iff, e]; simp
      simp [State.weight, hm]
    · exact le_of_eq (s.weight_congr _ j (s.segCheck_release_ne _ _ e) (s.seg_release_ne _ _ e))
  rw [State.mappedWords_eq_sum, State.mappedWords_eq_sum, State.tlen_release]
  apply List.sum_le_sum
  intro j hj
  exact hle j (List.mem_range.1 hj)

end Sys2Proof.Machine
end

