-- ==== Sys2Proof/Laws/Exec.lean ====
section
/-! SUPPORT. What an instruction and a step can do, each said once (`exec_effect`, `step_cases`), and when each
instruction has its own effect (`exec…_ok`). Later proofs cite these instead of unfolding the meanings. -/

namespace Sys2Proof.Machine

variable (s : State)

/-! ### Reading memory after a change elsewhere -/

theorem State.readsAs_of_same_table (t : State) (h1 : t.segs = s.segs) (h2 : t.freeList = s.freeList) : t.ReadsAs s :=
  fun p => State.memRead_congr s t h1 h2 p.id p.off.toNat

theorem State.onlyRegister_setReg (a : Reg) (v : Word) : s.OnlyRegister a (s.setReg a v) :=
  ⟨fun r h => s.reg_setReg_of_ne a r v h, rfl, s.readsAs_of_same_table _ rfl rfl⟩

theorem State.onlyRegister_refl (a : Reg) : s.OnlyRegister a s := ⟨fun _ _ => rfl, rfl, fun _ => rfl⟩

/-! ### The causes -/

theorem State.segCheck_cause (id : Word) (c : Cause) (h : s.segCheck id = some c) :
    c = .segmentIdOutOfRange ∨ c = .segmentUnmapped := by
  unfold State.segCheck at h
  split at h
  · left; cases h; rfl
  · split at h
    · right; cases h; rfl
    · cases h

theorem State.accessCheck_cause (id : Word) (off : Nat) (c : Cause) (h : s.accessCheck id off = some c) :
    c = .segmentIdOutOfRange ∨ c = .segmentUnmapped ∨ c = .offsetOutOfRange := by
  unfold State.accessCheck at h
  cases h2 : s.segCheck id with
  | some d => rw [h2] at h; cases h; rcases s.segCheck_cause id _ h2 with e | e <;> simp [e]
  | none =>
    rw [h2] at h
    simp only at h
    split at h
    · cases h; simp
    · cases h

theorem noCause_not_mem_causesOf (i : Instr) : Cause.noCause ∉ causesOf i := by cases i <;> simp [causesOf]

/-! ### The I/O instructions -/

theorem State.setWait_none_of_none (h : s.wait = none) : s.setWait none = s := by cases s; cases h; rfl

/-- An INPUT completes, with some value and some new read position, or waits. -/
theorem State.tryIo_input_form (c : Reg) :
    (∃ p v, s.tryIo (.input c) = ((s.setInput p).setReg c v).setWait none) ∨
    s.tryIo (.input c) = s.setWait (some (.input c)) := by
  rcases s.tryIo_cases (.input c) with ⟨c', e, _, h⟩ | ⟨b, e, _⟩ | h
  · cases e
    obtain ⟨p, hp⟩ := s.consumeInput_eq
    exact .inl ⟨p, _, by rw [h]; unfold State.completeInput; rw [hp]⟩
  · cases e
  · exact .inr h

/-- An OUTPUT completes or waits. -/
theorem State.tryIo_output_form (b : Byte) :
    s.tryIo (.output b) = (s.emit b).setWait none ∨ s.tryIo (.output b) = s.setWait (some (.output b)) := by
  rcases s.tryIo_cases (.output b) with ⟨c', e, _⟩ | ⟨b', e, _, h⟩ | h
  · cases e
  · cases e; exact .inl h
  · exact .inr h

theorem State.inv_tryIo (w : IoWait) (hi : s.Inv) (hr : s.status = .running) : (s.tryIo w).Inv := by
  have hk : ∀ t : State, t.segs = s.segs → t.freeList = s.freeList → t.cfg = s.cfg → t.stopReason = s.stopReason →
      t.cause = s.cause → t.status = s.status → t.pc = s.pc → t.Inv := by
    intro t h1 h2 h3 h4 h5 h6 h7
    exact s.inv_of_same_table t hi h1 h2 h3 (by rw [h4, h6]; exact hi.stop_reason)
      (by rw [h5, h6]; exact hi.fault_cause) (fun _ => by rw [h6]; exact hr) (by rw [h7]; exact hi.pc_lt)
  cases w with
  | input c => rcases s.tryIo_input_form c with ⟨p, v, e⟩ | e <;> rw [e] <;> exact hk _ rfl rfl rfl rfl rfl rfl rfl
  | output b => rcases s.tryIo_output_form b with e | e <;> rw [e] <;> exact hk _ rfl rfl rfl rfl rfl rfl rfl

/-- The value INPUT writes is a byte or all ones (45_io.md rule R194). -/
theorem inputValue_range (e : InEvent) : (inputValue e).toNat ≤ 255 ∨ inputValue e = 0xFFFFFFFF#32 := by
  cases e with
  | byte b => left; simp [inputValue, zextByte]; have := b.isLt; omega
  | endOfInput => right; rfl

/-! ### When an instruction has its own effect -/

theorem execSstore_ok (a b c : Reg) (h1 : s.mapped (s.reg a) = true) (h2 : (s.reg b).toNat < s.segLen (s.reg a)) :
    exec (.sstore a b c) s = .next (s.setSeg (s.reg a) ((s.seg (s.reg a)).put (s.reg b).toNat (s.reg c))) := by
  show (Host.Outcome.next _ : Result) = _
  simp only [State.store, State.address, s.memWrite_ok _ _ _ h1 h2]
  rfl

theorem execMap_ok (b c : Reg) (h : s.allocateCheck (s.reg c).toNat = none) :
    exec (.map b c) s = .next ((s.allocated (s.reg c).toNat).2.setReg b (s.allocated (s.reg c).toNat).1) := by
  show (Host.Outcome.next _ : Result) = _
  rw [s.allocate_of_check _ h]
  rfl

theorem execUnmap_ok (c : Reg) (h1 : s.mapped (s.reg c) = true) (h2 : s.reg c ≠ 0#32) :
    exec (.unmap c) s = .next (s.release (s.reg c)) := by
  show (Host.Outcome.next _ : Result) = _
  simp [s.segCheck_of_mapped _ h1, programIdCheck, h2]

theorem execInput_ok (c : Reg) (hw : s.wait = none) (h : s.inputReady = true) :
    exec (.input c) s = .next (s.consumeInput.setReg c (inputValue s.nextInput)) := by
  show (Host.Outcome.next _ : Result) = _
  simp only [State.tryIo, h, if_true, State.completeInput]
  obtain ⟨p, hp⟩ := s.consumeInput_eq
  rw [State.setWait_none_of_none _ (by rw [hp]; simpa using hw)]

theorem execLoadp_jump (b c : Reg) (h : s.reg b = 0#32) : exec (.loadp b c) s = .next (s.setPc (s.reg c).toNat) := by
  show (Host.Outcome.next _ : Result) = _
  simp [h]

theorem execLoadp_ok (b c : Reg) (hb : s.reg b ≠ 0#32) (hm : s.mapped (s.reg b) = true)
    (hc : s.duplicateCheck (s.reg b) = none) :
    exec (.loadp b c) s = .next ((s.setSeg 0#32 (s.seg (s.reg b))).setPc (s.reg c).toNat) := by
  show (Host.Outcome.next _ : Result) = _
  simp only [if_neg hb, s.segCheck_of_mapped _ hm, s.duplicateInto0_of_check _ hc]
  rfl

/-! ### Everything an instruction can do -/

/-- The states an instruction can leave, from the state `s` after its fetch. -/
inductive Effect (s : State) : Instr → State → Prop where
  | keep (a b c : Reg) : Effect s (.cmov a b c) s
  | reg (i : Instr) (a : Reg) (v : Word) : destReg i = some a → (∀ c, i ≠ .input c) → (∀ b c, i ≠ .map b c) →
      Effect s i (s.setReg a v)
  | fault (i : Instr) (c : Cause) : c ∈ causesOf i → Effect s i (s.raiseFault c)
  | halt : Effect s .halt (s.stopRun .haltInstruction)
  | store (a b c : Reg) : s.mapped (s.reg a) = true → (s.reg b).toNat < s.segLen (s.reg a) →
      Effect s (.sstore a b c) (s.setSeg (s.reg a) ((s.seg (s.reg a)).put (s.reg b).toNat (s.reg c)))
  | map (b c : Reg) : s.allocateCheck (s.reg c).toNat = none →
      Effect s (.map b c) ((s.allocated (s.reg c).toNat).2.setReg b (s.allocated (s.reg c).toNat).1)
  | unmap (c : Reg) : s.mapped (s.reg c) = true → s.reg c ≠ 0#32 → Effect s (.unmap c) (s.release (s.reg c))
  | jump (b c : Reg) : s.reg b = 0#32 → Effect s (.loadp b c) (s.setPc (s.reg c).toNat)
  | load (b c : Reg) : s.reg b ≠ 0#32 → s.mapped (s.reg b) = true → s.duplicateCheck (s.reg b) = none →
      Effect s (.loadp b c) ((s.setSeg 0#32 (s.seg (s.reg b))).setPc (s.reg c).toNat)
  | input (c : Reg) : Effect s (.input c) (s.tryIo (.input c))
  | output (c : Reg) (b : Byte) : (s.reg c).toNat ≤ 255 → Effect s (.output c) (s.tryIo (.output b))

theorem exec_effect (i : Instr) (t : State) (h : exec i s = .next t) : Effect s i t := by
  cases i with
  | cmov a b c =>
    cases h
    split
    · exact .reg _ _ _ rfl (by simp) (by simp)
    · exact .keep a b c
  | add a b c => cases h; exact .reg _ _ _ rfl (by simp) (by simp)
  | mul a b c => cases h; exact .reg _ _ _ rfl (by simp) (by simp)
  | nand a b c => cases h; exact .reg _ _ _ rfl (by simp) (by simp)
  | loadv a imm => cases h; exact .reg _ _ _ rfl (by simp) (by simp)
  | div a b c =>
    cases h
    by_cases hd : s.reg c = 0#32
    · simp only [divisorCheck, hd, if_true, checked_some, State.conclude_error]
      exact .fault _ _ (by simp [causesOf])
    · simp only [divisorCheck, hd, if_false, checked_none, State.conclude_ok]
      exact .reg _ _ _ rfl (by simp) (by simp)
  | halt => cases h; exact .halt
  | illegal14 => cases h; exact .fault _ _ (by simp [causesOf])
  | illegal15 => cases h; exact .fault _ _ (by simp [causesOf])
  | sload a b c =>
    cases h
    simp only [State.load, State.address, State.memRead]
    cases hc : s.accessCheck (s.reg b) (s.reg c).toNat with
    | some d => exact .fault _ _ (by simpa [causesOf] using s.accessCheck_cause _ _ _ hc)
    | none => exact .reg _ _ _ rfl (by simp) (by simp)
  | sstore a b c =>
    cases h
    simp only [State.store, State.address, State.memWrite]
    cases hc : s.accessCheck (s.reg a) (s.reg b).toNat with
    | some d => exact .fault _ _ (by simpa [causesOf] using s.accessCheck_cause _ _ _ hc)
    | none =>
      obtain ⟨h1, h2⟩ := (s.accessCheck_none_iff _ _).1 hc
      exact .store a b c h1 h2
  | map b c =>
    cases h
    rcases s.allocateCheck_cases (s.reg c).toNat with e | e
    · rw [s.allocate_of_check _ e]; exact .map b c e
    · simp only [State.allocate, e]; exact .fault _ _ (by simp [causesOf])
  | unmap c =>
    cases h
    cases hc : s.segCheck (s.reg c) with
    | some d => exact .fault _ _ (by have := s.segCheck_cause _ _ hc; simp [causesOf]; tauto)
    | none =>
      by_cases hd : s.reg c = 0#32
      · simp only [programIdCheck, hd, if_true, checked_some, State.conclude_error, checked_none]
        exact .fault _ _ (by simp [causesOf])
      · simp only [programIdCheck, hd, if_false, checked_none, State.conclude_ok]
        exact .unmap c ((s.segCheck_none_iff _).1 hc) hd
  | output c =>
    cases h
    by_cases hd : 255 < (s.reg c).toNat
    · simp only [byteRangeCheck, hd, if_true, checked_some, State.conclude_error]
      exact .fault _ _ (by simp [causesOf])
    · simp only [byteRangeCheck, hd, if_false, checked_none, State.conclude_ok]
      exact .output c _ (by omega)
  | input c => cases h; exact .input c
  | loadp b c =>
    cases h
    by_cases hb : s.reg b = 0#32
    · simp only [hb, if_true, State.conclude_ok]; exact .jump b c hb
    · simp only [hb, if_false]
      cases hc : s.segCheck (s.reg b) with
      | some d => exact .fault _ _ (by have := s.segCheck_cause _ _ hc; simp [causesOf]; tauto)
      | none =>
        simp only [checked_none]
        rcases s.duplicateCheck_cases (s.reg b) with e | e
        · rw [s.duplicateInto0_of_check _ e]; exact .load b c hb ((s.segCheck_none_iff _).1 hc) e
        · simp only [State.duplicateInto0, e]; exact .fault _ _ (by simp [causesOf])

/-- No instruction ends in a host fault or a refusal. -/
theorem exec_total (i : Instr) : ∃ t, exec i s = .next t := by
  cases i <;> exact ⟨_, rfl⟩

/-! ### Everything a step can do -/

/-- A step of a running machine that waits in nothing runs the word at `(0, pc)`. -/
theorem step_of_fetched (w : Word) (hr : s.status = .running) (hw : s.wait = none) (h : s.memRead 0#32 s.pc = .ok w) :
    step s = exec (decode w) s.advancePc := by
  apply step_of_word
  rcases s.sequence_cases with ⟨e, _⟩ | ⟨_, w', e, _⟩ | ⟨_, _, e, _⟩ | ⟨_, _, e, _⟩ | ⟨_, _, _, c, e, _⟩ |
    ⟨_, _, _, w', e, e2⟩
  · exact absurd hr e
  · rw [hw] at e; cases e
  · have := ((s.memRead_eq_ok_iff _ _ _).1 h).2.1; omega
  · have := ((s.memRead_eq_ok_iff _ _ _).1 h).2.1; omega
  · rw [h] at e; cases e
  · rw [h] at e; cases e; exact e2

/-- A waiting machine goes on with the instruction it waits in. -/
theorem step_of_waiting (w : IoWait) (hr : s.status = .running) (hw : s.wait = some w) :
    step s = .next (s.tryIo w) := by
  apply step_of_ended
  simp [State.sequence, hr, hw]

/-- The states a step can leave. -/
theorem step_cases (t : State) (h : step s = .next t) :
    (s.status ≠ .running ∧ t = s) ∨
    (s.status = .running ∧ ∃ w, s.wait = some w ∧ t = s.tryIo w) ∨
    (s.status = .running ∧ s.wait = none ∧ t = s.stopRun .endOfProgram) ∨
    (s.status = .running ∧ s.wait = none ∧ ∃ c, c ≠ .noCause ∧ t = s.raiseFault c) ∨
    (s.status = .running ∧ s.wait = none ∧
      ∃ w, s.memRead 0#32 s.pc = .ok w ∧ Effect s.advancePc (decode w) t) := by
  have key : ∀ u, s.sequence = .ended u → t = u := by
    intro u e
    have := step_of_ended s u e
    rw [h] at this
    cases this
    rfl
  rcases s.sequence_cases with ⟨a, e⟩ | ⟨hr, w, hw, e⟩ | ⟨hr, hw, _, e⟩ | ⟨hr, hw, _, e⟩ | ⟨hr, hw, _, c, hm, e⟩ |
    ⟨hr, hw, _, w, hm, e⟩
  · exact .inl ⟨a, key _ e⟩
  · exact .inr (.inl ⟨hr, w, hw, key _ e⟩)
  · exact .inr (.inr (.inl ⟨hr, hw, key _ e⟩))
  · have := key _ e
    unfold State.pastEnd at this
    split at this
    · exact .inr (.inr (.inr (.inl ⟨hr, hw, _, by decide, this⟩)))
    · exact .inr (.inr (.inl ⟨hr, hw, this⟩))
  · refine .inr (.inr (.inr (.inl ⟨hr, hw, c, ?_, key _ e⟩)))
    intro hc
    subst hc
    unfold State.memRead at hm
    cases ha : s.accessCheck 0#32 s.pc with
    | some d => rw [ha] at hm; cases hm; have := s.accessCheck_cause _ _ _ ha; simp at this
    | none => rw [ha] at hm; cases hm
  · refine .inr (.inr (.inr (.inr ⟨hr, hw, w, hm, ?_⟩)))
    have := step_of_word s _ _ e
    rw [h] at this
    exact exec_effect _ _ _ this.symm

end Sys2Proof.Machine
end

