-- ==== Sys2Proof/Laws/PerInstr.lean ====
section
/-! SUPPORT. One statement about every instruction, constructor by constructor: the opcode field of its word is its opcode
(30_encoding.md rules R106 and R132). -/

namespace Sys2Proof.Laws.OpcodeField

/-- Bits 31:28 of the canonical word are the opcode. -/
def Statement (i : Instr) : Prop := opField (encode i) = opcodeOf i

theorem cmov (a b c : Reg) : Statement (.cmov a b c) := (encodeReg3_fields _ a b c).1

theorem sload (a b c : Reg) : Statement (.sload a b c) := (encodeReg3_fields _ a b c).1

theorem sstore (a b c : Reg) : Statement (.sstore a b c) := (encodeReg3_fields _ a b c).1

theorem add (a b c : Reg) : Statement (.add a b c) := (encodeReg3_fields _ a b c).1

theorem mul (a b c : Reg) : Statement (.mul a b c) := (encodeReg3_fields _ a b c).1

theorem div (a b c : Reg) : Statement (.div a b c) := (encodeReg3_fields _ a b c).1

theorem nand (a b c : Reg) : Statement (.nand a b c) := (encodeReg3_fields _ a b c).1

theorem halt : Statement .halt := (encodeReg3_fields _ 0 0 0).1

theorem map (b c : Reg) : Statement (.map b c) := (encodeReg3_fields _ 0 b c).1

theorem unmap (c : Reg) : Statement (.unmap c) := (encodeReg3_fields _ 0 0 c).1

theorem output (c : Reg) : Statement (.output c) := (encodeReg3_fields _ 0 0 c).1

theorem input (c : Reg) : Statement (.input c) := (encodeReg3_fields _ 0 0 c).1

theorem loadp (b c : Reg) : Statement (.loadp b c) := (encodeReg3_fields _ 0 b c).1

theorem loadv (a : Reg) (imm : Nat) : Statement (.loadv a imm) := (encodeImm_fields _ a imm).1

theorem illegal14 : Statement .illegal14 := (encodeReg3_fields _ 0 0 0).1

theorem illegal15 : Statement .illegal15 := (encodeReg3_fields _ 0 0 0).1

end Sys2Proof.Laws.OpcodeField
end

