-- ==== Sys2Proof/Laws/Run.lean ====
section
/-! SUPPORT. Runs: what the devices can change, that each step of a run is a step of the machine, that a terminal state ends
the run for good, and that the states of runs are the reachable states (70_reset_and_hazards.md rules R268 to R270). -/

namespace Sys2Proof.Machine

variable (s : State)

/-! ### The devices -/

/-- A move of a device changes the input port and the readiness of the output device, and nothing else (R269). -/
theorem State.deviceMove_eq (m : DeviceMove) : ∃ p b, s.deviceMove m = { s with input := p, outReady := b } := by
  cases m <;> exact ⟨_, _, rfl⟩

@[simp] theorem State.devices_nil : s.devices [] = s := rfl
@[simp] theorem State.devices_cons (m : DeviceMove) (ms : List DeviceMove) :
    s.devices (m :: ms) = (s.deviceMove m).devices ms := rfl

theorem State.devices_append (ms ns : List DeviceMove) : s.devices (ms ++ ns) = (s.devices ms).devices ns :=
  List.foldl_append

/-- So do any moves of the devices. -/
theorem State.devices_eq (ms : List DeviceMove) : ∃ p b, s.devices ms = { s with input := p, outReady := b } := by
  induction ms generalizing s with
  | nil => exact ⟨s.input, s.outReady, rfl⟩
  | cons m ms ih =>
    obtain ⟨p, b, h⟩ := s.deviceMove_eq m
    obtain ⟨q, d, h2⟩ := ih (s.deviceMove m)
    exact ⟨q, d, by rw [State.devices_cons, h2, h]⟩

@[simp] theorem State.devices_status (ms : List DeviceMove) : (s.devices ms).status = s.status := by
  obtain ⟨p, b, h⟩ := s.devices_eq ms; rw [h]

@[simp] theorem State.devices_wait (ms : List DeviceMove) : (s.devices ms).wait = s.wait := by
  obtain ⟨p, b, h⟩ := s.devices_eq ms; rw [h]

@[simp] theorem State.devices_cfg (ms : List DeviceMove) : (s.devices ms).cfg = s.cfg := by
  obtain ⟨p, b, h⟩ := s.devices_eq ms; rw [h]

/-- Input moves leave the readiness of the output device alone, and so the rest of the state. -/
theorem State.devices_of_no_outReady (ms : List DeviceMove) (h : ∀ b, .outReady b ∉ ms) :
    ∃ p, s.devices ms = s.setInput p := by
  induction ms generalizing s with
  | nil => exact ⟨s.input, rfl⟩
  | cons m ms ih =>
    obtain ⟨q, hq⟩ := ih (s.deviceMove m) fun b hb => h b (List.mem_cons_of_mem _ hb)
    refine ⟨q, ?_⟩
    rw [State.devices_cons, hq]
    cases m with
    | supplies e => rfl
    | silent b => rfl
    | outReady b => exact absurd List.mem_cons_self (h b)

theorem State.inv_deviceMove (m : DeviceMove) (hi : s.Inv) : (s.deviceMove m).Inv := by
  cases m with
  | supplies e => exact s.inv_setInput _ hi
  | silent b => exact s.inv_setInput _ hi
  | outReady b => exact s.inv_deviceOutReady b hi

theorem State.inv_devices (ms : List DeviceMove) (hi : s.Inv) : (s.devices ms).Inv := by
  induction ms generalizing s with
  | nil => exact hi
  | cons m ms ih => exact ih _ (s.inv_deviceMove m hi)

/-! ### Steps -/

/-- Every step answers the state `stepped`. -/
theorem step_eq_stepped : step s = .next s.stepped := by
  have h : ∃ t, step s = .next t := by
    rcases hq : s.sequence with t | ⟨w, t⟩
    · exact ⟨t, step_of_ended s t hq⟩
    · obtain ⟨u, hu⟩ := exec_total t (decode w)
      exact ⟨u, by rw [step_of_word s w t hq, hu]⟩
  obtain ⟨t, ht⟩ := h
  simp [State.stepped, ht]

theorem State.stepped_of_step (t : State) (h : step s = .next t) : s.stepped = t := by
  simp [State.stepped, h]

/-- A terminal state answers itself (10_state.md rule R36). -/
theorem State.stepped_of_over (h : s.status ≠ .running) : s.stepped = s := by
  apply s.stepped_of_step
  apply step_of_ended
  rcases s.sequence_cases with ⟨_, e⟩ | ⟨e, _⟩ | ⟨e, _⟩ | ⟨e, _⟩ | ⟨e, _⟩ | ⟨e, _⟩
  · exact e
  all_goals exact absurd e h

theorem State.stepped_of_waiting (w : IoWait) (hr : s.status = .running) (hw : s.wait = some w) :
    s.stepped = s.tryIo w := s.stepped_of_step _ (step_of_waiting s w hr hw)

/-- No I/O instruction changes the parameters. -/
theorem State.tryIo_cfg (w : IoWait) : (s.tryIo w).cfg = s.cfg := by
  cases w with
  | input c => rcases s.tryIo_input_form c with ⟨p, v, e⟩ | e <;> rw [e] <;> rfl
  | output b => rcases s.tryIo_output_form b with e | e <;> rw [e] <;> rfl

/-- No instruction changes the parameters. -/
theorem Effect.cfg_eq (i : Instr) (t : State) (h : Effect s i t) : t.cfg = s.cfg := by
  cases h with
  | map b c _ => rw [State.setReg_cfg, State.allocated_eq]
  | input c => exact s.tryIo_cfg _
  | output c b _ => exact s.tryIo_cfg _
  | _ => rfl

/-- No step changes the parameters (00_scope.md rule R11). -/
@[simp] theorem State.stepped_cfg : s.stepped.cfg = s.cfg := by
  rcases step_cases s _ (step_eq_stepped s) with ⟨_, e⟩ | ⟨_, w, _, e⟩ | ⟨_, _, e⟩ | ⟨_, _, c, _, e⟩ | ⟨_, _, w, _, e⟩
  · rw [e]
  · rw [e]; exact s.tryIo_cfg w
  · rw [e]; rfl
  · rw [e]; rfl
  · exact e.cfg_eq

/-! ### Runs -/

variable (env : Environment)

theorem State.runIn_succ (n : Nat) : s.runIn env (n + 1) = ((s.runIn env n).devices (env n)).stepped := rfl

/-- A machine left to itself runs as in the idle environment. -/
theorem State.after_eq_runIn_idle (n : Nat) : s.after n = s.runIn Environment.idle n := by
  have h : ∀ n (s : State), s.stepped.runIn Environment.idle n = s.runIn Environment.idle (n + 1) := by
    intro n
    induction n with
    | zero => intro s; rfl
    | succ n ih => intro s; rw [State.runIn_succ, ih]; rfl
  induction n generalizing s with
  | zero => rfl
  | succ n ih => rw [State.after, ih, h]

@[simp] theorem State.runIn_cfg (n : Nat) : (s.runIn env n).cfg = s.cfg := by
  induction n with
  | zero => rfl
  | succ n ih => rw [State.runIn_succ, State.stepped_cfg, State.devices_cfg, ih]

/-- Once a run is over, STATUS stays as it is (10_state.md rule R36, rule R270). -/
theorem State.runIn_status_of_over (n m : Nat) (hm : n ≤ m) (h : (s.runIn env n).status ≠ .running) :
    (s.runIn env m).status = (s.runIn env n).status := by
  induction m, hm using Nat.le_induction with
  | base => rfl
  | succ m _ ih =>
    rw [State.runIn_succ, State.stepped_of_over _ (by rw [State.devices_status, ih]; exact h), State.devices_status, ih]

/-- A run that is RUNNING after `m` steps was RUNNING after fewer. -/
theorem State.runIn_running_of_le (n m : Nat) (hm : n ≤ m) (h : (s.runIn env m).status = .running) :
    (s.runIn env n).status = .running := by
  by_contra hn
  exact hn (by rw [← s.runIn_status_of_over env n m hm hn]; exact h)

/-- Runs in environments that make the same moves are the same. -/
theorem State.runIn_congr (env' : Environment) (n : Nat) (h : ∀ k, k < n → env' k = env k) :
    s.runIn env' n = s.runIn env n := by
  induction n with
  | zero => rfl
  | succ n ih =>
    rw [State.runIn_succ, State.runIn_succ, ih fun k hk => h k (by omega), h n (by omega)]

/-! ### Runs of images -/

theorem runState_eq_some_iff (cfg : Config) (image : List Byte) (n : Nat) (t : State) :
    runState cfg image env n = some t ↔ ∃ s, State.boot cfg image = some s ∧ s.runIn env n = t := by
  simp [runState]

theorem runImage_eq_some_iff (cfg : Config) (image : List Byte) (n e : Nat) :
    runImage cfg image env n = some e ↔ ∃ t, runState cfg image env n = some t ∧ t.exitStatus = some e := by
  simp [runImage, Option.bind_eq_some_iff]

/-- The loader's answer: the reset state with the image, or no run (R261, R262). -/
theorem State.boot_eq_some_iff (cfg : Config) (image : List Byte) (t : State) :
    State.boot cfg image = some t ↔ (imageWords image).length ≤ cfg.imageWordsMax ∧
      t = { State.reset with cfg := cfg, segs := [Segment.ofWords (imageWords image)] } := by
  unfold State.boot
  split
  · rename_i h; simp [h, eq_comm]
  · rename_i h; simp [h]

/-- The exit status is 0 after HALTED and EXIT_FAULT after FAULTED (10_state.md rule R39). -/
theorem State.exitStatus_eq_some_iff (e : Nat) :
    s.exitStatus = some e ↔ (s.status = .halted ∧ e = 0) ∨ (s.status = .faulted ∧ e = s.cfg.exitFault) := by
  unfold State.exitStatus
  cases s.status <;> simp [eq_comm]

/-- The states of runs, with the devices' moves after the last step, are the reachable states (R260, R269). -/
theorem reachable_iff_run :
    Reachable s ↔ ∃ cfg image env n ms t, cfg.wf = true ∧ runState cfg image env n = some t ∧ s = t.devices ms := by
  constructor
  · intro h
    induction h with
    | boot cfg image s hc hb => exact ⟨cfg, image, Environment.idle, 0, [], s, hc, by simp [runState, hb, State.runIn], rfl⟩
    | step s t _ hs ih =>
      obtain ⟨cfg, image, env, n, ms, u, hc, hr, e⟩ := ih
      obtain ⟨b, hb, hu⟩ := (runState_eq_some_iff env cfg image n u).1 hr
      refine ⟨cfg, image, fun k => if k = n then ms else env k, n + 1, [], t, hc, ?_, rfl⟩
      rw [runState_eq_some_iff]
      refine ⟨b, hb, ?_⟩
      rw [State.runIn_succ, b.runIn_congr env _ n fun k hk => if_neg (by omega), hu]
      simp only [if_true]
      rw [← e]
      exact s.stepped_of_step t hs
    | device s m _ ih =>
      obtain ⟨cfg, image, env, n, ms, u, hc, hr, e⟩ := ih
      exact ⟨cfg, image, env, n, ms ++ [m], u, hc, hr, by rw [State.devices_append, ← e]; rfl⟩
  · rintro ⟨cfg, image, env, n, ms, t, hc, hr, rfl⟩
    obtain ⟨b, hb, rfl⟩ := (runState_eq_some_iff env cfg image n t).1 hr
    have hd : ∀ (ms : List DeviceMove) (u : State), Reachable u → Reachable (u.devices ms) := by
      intro ms
      induction ms with
      | nil => exact fun _ h => h
      | cons m ms ih => exact fun u h => ih _ (.device u m h)
    apply hd
    clear hr
    induction n with
    | zero => exact .boot cfg image b hc hb
    | succ n ih => exact .step _ _ (hd (env n) _ ih) (step_eq_stepped _)

end Sys2Proof.Machine
end

