-- ==== Sys2Proof/Tests/Slice0.lean ====
section
/-! SUPPORT. Tests. Words and expected values are those of 95_test_vectors.md, cited by their ids; witnesses show that the
hypotheses of the obligations can be met together. -/

open Sys2Proof Sys2Proof.Machine

namespace Sys2Proof.Tests

/-- The state of a single-instruction vector (95_test_vectors.md, Conventions): reset, segment 0 the one word, some registers
preset. -/
def machineAt (w : Word) (presets : List (Reg × Word)) : State :=
  presets.foldl (fun s p => s.setReg p.1 p.2) { State.reset with segs := [Segment.ofWords [w]] }

/-- The state after the one step. -/
def run1 (w : Word) (presets : List (Reg × Word)) : State := (machineAt w presets).after 1

/-! ### WellFormed refuses ill-formed terms -/

/-- R132: an immediate of 26 bits cannot be encoded, and the assembler refuses it. -/
theorem test_wf_refuses_wide_immediate :
    (Instr.loadv 0 0x2000000).wf = false ∧ assemble (.loadv 0 0x2000000) = none ∧
      (Instr.loadv 7 0x1FFFFFF).wf = true := by decide

/-- R11: the ranges of the parameters. -/
theorem test_config_wf_refuses :
    ({ Config.default with nsegMax := 0 }).wf = false ∧ ({ Config.default with nsegMax := 2 ^ 32 + 1 }).wf = false ∧
      ({ Config.default with imageWordsMax := 2 ^ 32 }).wf = false ∧ ({ Config.default with exitFault := 0 }).wf = false ∧
      ({ Config.default with pcw := 31 }).wf = false ∧ ({ Config.default with idw := 33 }).wf = false ∧
      ({ Config.default with pcw := 64 }).wf = true ∧ Config.default.wf = true := by decide

/-- R43: a listed zero, a listed offset past the end, offsets out of order: not canonical. -/
theorem test_segment_wf_refuses :
    (Segment.mk 2 [(0, 0#32)]).wf = false ∧ (Segment.mk 2 [(2, 1#32)]).wf = false ∧
      (Segment.mk 2 [(1, 1#32), (0, 1#32)]).wf = false ∧ (Segment.mk (2 ^ 32) []).wf = false ∧
      (Segment.mk 2 [(0, 1#32), (1, 1#32)]).wf = true := by decide

/-! ### Decoding: words written out from the spec (95_test_vectors.md Part 2 and the instruction examples) -/

/-- V-DEC-15; op 0, a = bits 8:6 = 0, b = bits 5:3 = 1, c = bits 2:0 = 5. -/
theorem test_decode_cmov : decode 0x0000000D#32 = .cmov 0 1 5 := by decide

/-- V-LOAD-6, with junk in bits 27:9. -/
theorem test_decode_sload : decode 0x12345678#32 = .sload 1 7 0 := by decide

/-- the example of R150. -/
theorem test_decode_sstore : decode 0x20000055#32 = .sstore 1 2 5 := by decide

/-- V-DEC-4, bits 27:9 all ones. -/
theorem test_decode_add : decode 0x3FFFFE53#32 = .add 1 2 3 := by decide

/-- the example of R158. -/
theorem test_decode_mul : decode 0x400000CA#32 = .mul 3 1 2 := by decide

/-- the example of R161. -/
theorem test_decode_div : decode 0x5000018D#32 = .div 6 1 5 := by decide

/-- the example of R165. -/
theorem test_decode_nand : decode 0x600001CD#32 = .nand 7 1 5 := by decide

/-- V-DEC-5. -/
theorem test_decode_halt : decode 0x70ABCDEF#32 = .halt := by decide

/-- V-DEC-12: the result register is b. -/
theorem test_decode_map : decode 0x8000000B#32 = .map 1 3 := by decide

/-- the example of R181 with the unused fields a and b set. -/
theorem test_decode_unmap : decode 0x900001F9#32 = .unmap 1 := by decide

/-- V-DEC-6, unused a and b set. -/
theorem test_decode_output : decode 0xA00001F9#32 = .output 1 := by decide

/-- V-IN-1. -/
theorem test_decode_input : decode 0xB0000002#32 = .input 2 := by decide

/-- V-DEC-11. -/
theorem test_decode_loadp : decode 0xC0000016#32 = .loadp 2 6 := by decide

/-- V-DEC-9: bit 24 is the immediate's, bit 25 is a's. -/
theorem test_decode_loadv : decode 0xD7000000#32 = .loadv 3 0x1000000 := by decide

/-- V-DEC-13. -/
theorem test_decode_illegal14 : decode 0xE0000000#32 = .illegal14 := by decide

/-- V-DEC-14. -/
theorem test_decode_illegal15 : decode 0xFFFFFFFF#32 = .illegal15 := by decide

/-- V-LOAD-6: the first byte is bits 31:24; a row's word reaches the decoder through its bytes. -/
theorem test_byte_order :
    wordOfBytes 0x12#8 0x34#8 0x56#8 0x78#8 = 0x12345678#32 ∧
      bytesOfWord 0x12345678#32 = [0x12#8, 0x34#8, 0x56#8, 0x78#8] ∧
      decodeTableWord 32 0x12345678 = some (.sload 1 7 0) := by decide

/-- R100: three bytes hold no instruction. -/
theorem test_truncated : decodeBytes [0x70#8, 0#8, 0#8] = .error .truncated := by decide

/-- The canonical words of the examples of R140, R145 and R210. -/
theorem test_encode :
    encode (.cmov 2 1 3) = 0x0000008B#32 ∧ encode (.sload 0 1 2) = 0x1000000A#32 ∧
      encode (.loadv 7 0x1FFFFFF) = 0xDFFFFFFF#32 ∧ encode .halt = 0x70000000#32 := by decide

/-- E1: `set(FFFFFFFFFFFFFFFF, 3, 25, 5) = FFFFFFFFFBFFFFFF`. -/
theorem test_codec_set :
    codecSet 0xFFFFFFFFFFFFFFFF#64 aImmCodec 5#64 = .ok 0xFFFFFFFFFBFFFFFF#64 ∧
      codecGet 0xFFFFFFFFFBFFFFFF#64 aImmCodec = 5#64 := by decide

/-- E2: `set(0, 3, 25, 8)` and `set(0, 25, 0, 2000000)` overflow. -/
theorem test_codec_overflow :
    codecSet 0#64 aImmCodec 8#64 = .error .overflow ∧ codecSet 0#64 immCodec 0x2000000#64 = .error .overflow := by
  decide

/-- V-LOAD-2 and V-LOAD-5. -/
theorem test_image_words :
    imageWords [0xD0#8, 0#8, 0#8, 0x48#8, 0x70#8] = [0xD0000048#32, 0x70000000#32] ∧ imageWords [] = [] := by decide

/-! ### One step of each instruction (95_test_vectors.md Part 4) -/

/-- V-CMOV-3. -/
theorem test_cmov_moves_on_top_bit :
    (run1 0x00000053#32 [(1, 0x11#32), (2, 0x22#32), (3, 0x80000000#32)]).reg 1 = 0x22#32 := by decide

/-- V-CMOV-2. -/
theorem test_cmov_keeps_on_zero : (run1 0x00000053#32 [(1, 0x11#32), (2, 0x22#32)]).reg 1 = 0x11#32 := by decide

/-- V-MEM-1. -/
theorem test_sload_own_word : (run1 0x10000053#32 []).reg 1 = 0x10000053#32 := by decide

/-- V-MEM-2. -/
theorem test_sload_offset_fault :
    (run1 0x10000053#32 [(1, 0x5#32), (3, 0x1#32)]).cause = .offsetOutOfRange ∧ (run1 0x10000053#32 [(1, 0x5#32), (3, 0x1#32)]).reg 1 = 5#32 := by decide

/-- V-MEM-4. -/
theorem test_sstore_own_word :
    (run1 0x20000053#32 [(3, 0xDEADBEEF#32)]).memRead 0#32 0 = .ok 0xDEADBEEF#32 := by decide

/-- V-MEM-6. -/
theorem test_sstore_id_fault :
    (run1 0x20000053#32 [(1, 0x7#32), (3, 0xDEADBEEF#32)]).cause = .segmentIdOutOfRange ∧ (run1 0x20000053#32 [(1, 0x7#32), (3, 0xDEADBEEF#32)]).memRead 0#32 0 = .ok 0x20000053#32 := by decide

/-- V-ADD-1. -/
theorem test_add_wraps : (run1 0x30000053#32 [(2, 0xFFFFFFFF#32), (3, 0x1#32)]).reg 1 = 0#32 := by decide

/-- V-ADD-4. -/
theorem test_add_source_is_destination :
    (run1 0x30000092#32 [(2, 0xC0000001#32)]).reg 2 = 0x80000002#32 := by decide

/-- V-MUL-3. -/
theorem test_mul_low_half :
    (run1 0x40000053#32 [(2, 0x12345678#32), (3, 0x9ABCDEF0#32)]).reg 1 = 0x242D2080#32 := by decide

/-- V-MUL-2. -/
theorem test_mul_all_ones : (run1 0x40000053#32 [(2, 0xFFFFFFFF#32), (3, 0xFFFFFFFF#32)]).reg 1 = 1#32 := by decide

/-- V-DIV-5. -/
theorem test_div_is_unsigned :
    (run1 0x50000053#32 [(2, 0xFFFFFFFE#32), (3, 0x2#32)]).reg 1 = 0x7FFFFFFF#32 := by decide

/-- V-DIV-7. -/
theorem test_div_by_zero :
    (run1 0x50000053#32 [(1, 0x55#32), (2, 0x7#32)]).cause = .divideByZero ∧ (run1 0x50000053#32 [(1, 0x55#32), (2, 0x7#32)]).reg 1 = 0x55#32 ∧ (run1 0x50000053#32 [(1, 0x55#32), (2, 0x7#32)]).pc = 1 := by decide

/-- V-NAND-3. -/
theorem test_nand :
    (run1 0x60000053#32 [(2, 0xF0F0F0F0#32), (3, 0xFF00FF00#32)]).reg 1 = 0x0FFF0FFF#32 := by decide

/-- V-NAND-4. -/
theorem test_nand_is_not : (run1 0x60000052#32 [(2, 0x12345678#32)]).reg 1 = 0xEDCBA987#32 := by decide

/-- V-HALT-1. -/
theorem test_halt :
    (run1 0x70000000#32 [(7, 0x8#32)]).status = .halted ∧ (run1 0x70000000#32 [(7, 0x8#32)]).stopReason = .haltInstruction ∧ (run1 0x70000000#32 [(7, 0x8#32)]).exitStatus = some 0 ∧ (run1 0x70000000#32 [(7, 0x8#32)]).pc = 1 := by decide

/-- V-MAP-1. -/
theorem test_map :
    (run1 0x8000000A#32 [(1, 0x77#32), (2, 0x3#32)]).reg 1 = 1#32 ∧ (run1 0x8000000A#32 [(1, 0x77#32), (2, 0x3#32)]).tlen = 2 ∧ (run1 0x8000000A#32 [(1, 0x77#32), (2, 0x3#32)]).segLen 1#32 = 3 := by decide

/-- V-MAP-4. -/
theorem test_map_length_read_first :
    (run1 0x80000012#32 [(2, 0x4#32)]).reg 2 = 1#32 ∧ (run1 0x80000012#32 [(2, 0x4#32)]).segLen 1#32 = 4 := by decide

/-- V-UNMAP-1. -/
theorem test_unmap_zero :
    (run1 0x90000000#32 []).cause = .unmapSegmentZero ∧ (run1 0x90000000#32 []).freeList = [] := by decide

/-- V-UNMAP-2. -/
theorem test_unmap_never_created : (run1 0x90000001#32 [(1, 0x1#32)]).cause = .segmentIdOutOfRange := by decide

/-- V-OUT-2. -/
theorem test_output_255 : (run1 0xA0000001#32 [(1, 0xFF#32)]).out = [0xFF#8] := by decide

/-- V-OUT-3. -/
theorem test_output_256 :
    (run1 0xA0000001#32 [(1, 0x100#32)]).cause = .outputOutOfRange ∧ (run1 0xA0000001#32 [(1, 0x100#32)]).out = [] := by decide

/-- V-IN-2: a byte is zero-extended. -/
theorem test_input_byte_255 :
    (((machineAt 0xB0000002#32 []).deviceSupplies (.byte 0xFF#8)).after 1).reg 2 = 0xFF#32 := by decide

/-- V-IN-4: end of input is all ones, not a fault. -/
theorem test_input_end :
    (((machineAt 0xB0000002#32 []).deviceSupplies .endOfInput).after 1).reg 2 = 0xFFFFFFFF#32 := by decide

/-- V-LOADP-2. -/
theorem test_loadp_jump :
    (run1 0xC000000A#32 [(2, 0x2#32)]).pc = 2 ∧ (run1 0xC000000A#32 [(2, 0x2#32)]).status = .running := by decide

/-- V-LOADP-3. -/
theorem test_loadp_fault :
    (run1 0xC000000A#32 [(1, 0x1#32)]).cause = .segmentIdOutOfRange ∧ (run1 0xC000000A#32 [(1, 0x1#32)]).pc = 1 := by decide

/-- V-LOADV-2. -/
theorem test_loadv_no_sign : (run1 0xDFFFFFFF#32 [(7, 0xFFFFFFFF#32)]).reg 7 = 0x01FFFFFF#32 := by decide

/-- V-LOADV-4. -/
theorem test_loadv_bit_24 : (run1 0xD7000000#32 []).reg 3 = 0x01000000#32 := by decide

/-- V-ILL-1. -/
theorem test_illegal_14 :
    (run1 0xE0000000#32 []).cause = .illegalOpcode ∧ (run1 0xE0000000#32 []).exitStatus = some 1 ∧ (run1 0xE0000000#32 []).pc = 1 := by decide

/-- V-ILL-2. -/
theorem test_illegal_15 :
    (run1 0xFFFFFFFF#32 []).cause = .illegalOpcode ∧ (run1 0xFFFFFFFF#32 []).pc = 1 := by decide

/-- V-LOAD-5: the empty image stops at its first step; `State.reset` is that machine. -/
theorem test_empty_image :
    State.boot Config.default [] = some State.reset ∧ (State.reset.after 1).status = .halted ∧
      (State.reset.after 1).stopReason = .endOfProgram := by decide

/-- A placed instruction runs as the first one after reset. -/
theorem test_withFetchWord : ((State.reset.withFetchWord 32 0xD0000048).after 1).reg 0 = 72#32 := by decide

/-! ### Witnesses: the hypotheses of each obligation, met together, each clause at the edge of its range -/

/-- The invariant, from checks that compute. -/
theorem inv_of_checks (s : State) (h1 : s.cfg.wf = true) (h2 : 1 ≤ s.tlen ∧ s.tlen ≤ s.cfg.nsegMax)
    (h3 : (s.freeList.all fun id =>
      decide (1 ≤ id.toNat) && decide (id.toNat < s.tlen) && decide (s.seg id = Segment.empty)) = true)
    (h4 : s.freeList.Nodup) (h5 : Memory.wf s.segs = true)
    (h6 : s.status = .running ∧ s.stopReason = .noReason ∧ s.cause = .noCause ∧ s.wait = none)
    (h7 : s.pc < 2 ^ 32) : s.Inv := by
  simp only [List.all_eq_true, Bool.and_eq_true, decide_eq_true_eq] at h3
  obtain ⟨a, b, c, d⟩ := h6
  exact ⟨h1, h2.1, h2.2, fun id h => (h3 id h).1, h4, h5, fun id h => (h3 id h).2, by simp [a, b], by simp [a, c],
    by simp [d], h7⟩

/-- Segment 0 of three words (HALT, 0, 5), id 1 released, segment 2 of two words, `TLEN = 3`. The registers hold 0, an unmapped
id, a mapped id, the first id out of range, all ones, 255, 256 and 7. -/
def demo : State :=
  { State.reset with
    regs := #v[0#32, 1#32, 2#32, 3#32, 0xFFFFFFFF#32, 255#32, 256#32, 7#32]
    segs := [Segment.ofWords [0x70000000#32, 0#32, 5#32], Segment.empty, Segment.ofWords [7#32, 8#32]]
    freeList := [1#32] }

/-- `demo` with another word to run. -/
def demoAt (w : Word) : State := demo.setSeg 0#32 (Segment.ofWords [w, 0#32, 5#32])

/-- `demo` with a bound of exactly its five mapped words. -/
def demoFull : State := { demo with cfg := { Config.default with memWordsMax := some 5 } }

theorem test_demo_inv : demo.Inv :=
  inv_of_checks _ (by decide) (by decide) (by decide) (by decide) (by decide) (by decide) (by decide)

theorem test_demoFull_inv : demoFull.Inv :=
  inv_of_checks _ (by decide) (by decide) (by decide) (by decide) (by decide) (by decide) (by decide)

theorem test_demoFull_within : demoFull.WithinMemory := by
  intro m h
  cases h
  decide

/-- `demo` with no id released: `TLEN = 2`, segment 1 of two words. -/
def demoGrow : State :=
  { demo with segs := [Segment.ofWords [0x8000000A#32, 0#32, 5#32], Segment.ofWords [7#32, 8#32]], freeList := [] }

theorem test_demoGrow_inv : demoGrow.Inv :=
  inv_of_checks _ (by decide) (by decide) (by decide) (by decide) (by decide) (by decide) (by decide)

/-- Ids 1 and 2 both mapped. -/
def demoTwo : State :=
  { demo with segs := [Segment.empty, Segment.ofWords [7#32], Segment.ofWords [7#32, 8#32]], freeList := [] }

theorem test_demoTwo_inv : demoTwo.Inv :=
  inv_of_checks _ (by decide) (by decide) (by decide) (by decide) (by decide) (by decide) (by decide)

theorem test_witness_DecodeOfEncodeIsIdentity :
    (Instr.loadv 7 (2 ^ 25 - 1)).wf = true ∧ Instr.illegal15.wf = true ∧ 2 ^ 25 ≤ 2 ^ 25 := by decide

theorem test_witness_DecodeIsTheOpcodeMap :
    ∀ k : Fin 16, (BitVec.ofNat 32 (k.val * 2 ^ 28)).toNat / 2 ^ 28 = k.val ∧
      (BitVec.ofNat 32 (k.val * 2 ^ 28 + (2 ^ 28 - 1))).toNat / 2 ^ 28 = k.val := by decide

theorem test_witness_UnusedBitsAreIgnored :
    (opField 0x3FFFFE53#32 ≠ 13#4 ∧ 0x3FFFFE53#32 &&& 0xF00001FF#32 = 0x30000053#32 &&& 0xF00001FF#32) ∧
    opField 0x7FFFFFFF#32 = 7#4 ∧
    (opField 0x8FFFFFCB#32 = 8#4 ∧ 0x8FFFFFCB#32 &&& 0xF000003F#32 = 0x8000000B#32 &&& 0xF000003F#32) ∧
    (opField 0xCFFFFFD6#32 = 12#4 ∧ 0xCFFFFFD6#32 &&& 0xF000003F#32 = 0xC0000016#32 &&& 0xF000003F#32) ∧
    (opField 0x9FFFFFF9#32 = 9#4 ∧ 0x9FFFFFF9#32 &&& 0xF0000007#32 = 0x90000001#32 &&& 0xF0000007#32) ∧
    (opField 0xAFFFFFF9#32 = 10#4 ∧ 0xAFFFFFF9#32 &&& 0xF0000007#32 = 0xA0000001#32 &&& 0xF0000007#32) ∧
    (opField 0xBFFFFFFA#32 = 11#4 ∧ 0xBFFFFFFA#32 &&& 0xF0000007#32 = 0xB0000002#32 &&& 0xF0000007#32) ∧
    opField 0xD0000000#32 = opField 0xDFFFFFFF#32 := by decide

theorem test_witness_UnusedBitsAreIgnored_encode : ∀ a imm, Instr.halt ≠ .loadv a imm := by
  intro a imm h
  cases h

theorem test_witness_ImmediateFormatFillsTheWord :
    opField 0xDFFFFFFF#32 = 13#4 ∧ decode 0xDFFFFFFF#32 = .loadv 7 0x1FFFFFF := by decide

theorem test_witness_CodecGetAndSetContract :
    63 < 64 ∧ codecSet 0#64 ⟨1, 63, by decide, by decide⟩ 1#64 = .ok 0x8000000000000000#64 := by decide

theorem test_witness_CodecRoundTrip :
    (BitVec.allOnes 64).toNat < 2 ^ (CodecField.mk 64 0 (by decide) (by decide)).width ∧
      (1#64).toNat < 2 ^ (CodecField.mk 1 63 (by decide) (by decide)).width := by decide

theorem test_witness_ImageIsBigEndianAndZeroFilled :
    1 < ([0xD0#8, 0#8, 0#8, 0x48#8, 0x70#8].length + 3) / 4 := by decide

/-- Room for two words: an image of eight bytes fits, one of nine does not. -/
theorem test_witness_BootGivesTheResetState :
    ({ Config.default with imageWordsMax := 2 }).wf = true ∧
      (imageWords (List.replicate 8 1#8)).length ≤ ({ Config.default with imageWordsMax := 2 }).imageWordsMax ∧
      (1#32 : Word).toNat < ((List.replicate 8 1#8).length + 3) / 4 ∧
      ({ Config.default with imageWordsMax := 2 }).imageWordsMax < (imageWords (List.replicate 9 1#8)).length := by
  decide

theorem test_witness_BootMeetsTheInvariant :
    Config.default.wf = true ∧ ∃ s, State.boot Config.default [0x70#8] = some s := ⟨by decide, _, rfl⟩

theorem test_witness_StepKeepsTheInvariant : demo.Inv ∧ ∃ t, step demo = .next t := ⟨test_demo_inv, _, rfl⟩

theorem test_witness_ReachableStatesMeetR44 : Reachable State.reset ∧ Reachable (State.reset.deviceSilent true) :=
  have h : Reachable State.reset := .boot Config.default [] _ (by decide) (by decide)
  ⟨h, .device _ (.silent true) h⟩

theorem test_witness_StepStaysWithinMemory :
    demoFull.Inv ∧ demoFull.WithinMemory ∧ demoFull.mappedWords = 5 ∧ ∃ t, step demoFull = .next t :=
  ⟨test_demoFull_inv, test_demoFull_within, by decide, _, rfl⟩

/-- A MAP of two words with no id on the free-list: the table grows. -/
theorem test_witness_TableGrowsOnlyByMap :
    demoGrow.Inv ∧ ∃ t, step demoGrow = .next t ∧ t.tlen = demoGrow.tlen + 1 :=
  ⟨test_demoGrow_inv, _, rfl, by decide⟩

/-- `LOADP r2, r0` replaces segment 0, of three words, by a copy of segment 2, of two. -/
theorem test_witness_MappedLengthsNeverChange :
    ∃ t, step (demoAt 0xC0000010#32) = .next t ∧ (demoAt 0xC0000010#32).mapped 0#32 = true ∧ t.mapped 0#32 = true ∧
      t.segLen 0#32 = 2 ∧ t.mapped 2#32 = true := ⟨_, rfl, by decide⟩

theorem test_demoAt_inv : (demoAt 0xC0000010#32).Inv :=
  inv_of_checks _ (by decide) (by decide) (by decide) (by decide) (by decide) (by decide) (by decide)

/-- The last word of a segment written twice, and written at once: the same words, and so the same data. -/
theorem test_witness_CanonicalSegmentsAreEqual :
    let g := ((Segment.zero 2).put 1 9#32).put 1 5#32
    let h := Segment.ofWords [0#32, 5#32]
    g.wf = true ∧ h.wf = true ∧ g.len = h.len ∧ (∀ off, off < g.len → g.word off = h.word off) ∧ g = h := by
  decide

theorem test_witness_StepRunsTheFetchedInstruction :
    demo.status = .running ∧ demo.wait = none ∧ demo.memRead 0#32 demo.pc = .ok 0x70000000#32 ∧
      demo.pc < demo.segLen 0#32 := by decide

/-- At the width 32 and at a wider one, `pc` at the last word of segment 0 included. -/
theorem test_witness_PcWidthIsUnobservable :
    demo.Inv ∧ (demo.setPc 2).Inv ∧ 32 ≤ 32 ∧ 32 ≤ 33 ∧ (∃ t, step demo = .next t) ∧
      ∃ t, step (demo.setPc 2) = .next t ∧ t.pc = 3 :=
  ⟨test_demo_inv, demo.inv_setPc _ (by decide) test_demo_inv, by decide, by decide, ⟨_, rfl⟩, _, rfl, by decide⟩

/-- `pc` at the end of segment 0, and one past it under either value of PC_PAST_END. -/
theorem test_witness_EndOfProgramStopsTheRun :
    (demo.setPc 3).status = .running ∧ (demo.setPc 3).wait = none ∧
      (demo.setPc 3).pc = (demo.setPc 3).segLen 0#32 ∧
      (demo.setPc 4).segLen 0#32 < (demo.setPc 4).pc ∧ (demo.setPc 4).cfg.pcPastEnd = .fault ∧
      ({ demo.setPc 4 with cfg := { Config.default with pcPastEnd := .stop } } : State).cfg.pcPastEnd = .stop := by
  decide

theorem test_witness_TerminalStatesNeverChange :
    (demo.stopRun .haltInstruction).status ≠ .running ∧ (demo.raiseFault .divideByZero).status ≠ .running := by decide

theorem test_witness_OnlyLoadpSetsThePc :
    (∃ t, exec .halt demo = .next t) ∧ (∀ b c, Instr.halt ≠ .loadp b c) ∧ demo.cfg.wf = true ∧
      ∃ t, exec (.loadp 0 7) demo = .next t ∧ t.pc = 7 :=
  ⟨⟨_, rfl⟩, by decide, by decide, _, rfl, by decide⟩

theorem test_witness_PlacedWordIsRunNext :
    2 ^ 32 - 1 < 2 ^ 32 ∧ Memory.wf State.reset.segs = true ∧ Memory.wf demo.segs = true := by decide

theorem test_witness_ExitStatusFollowsStatus :
    demo.status = .running ∧ (demo.stopRun .endOfProgram).status = .halted ∧
      (demo.raiseFault .fetchOutOfRange).status = .faulted ∧ demo.Inv :=
  ⟨rfl, rfl, rfl, test_demo_inv⟩

/-- `ADD r0, r2, r2` changes `x[0]`; a waiting INPUT changes its register. -/
theorem test_witness_OnlyTheDestinationRegisterChanges :
    (∃ t, step (demoAt 0x30000012#32) = .next t ∧ t.reg 0 ≠ (demoAt 0x30000012#32).reg 0) ∧
    ∃ t, step ((demo.setWait (some (.input 3))).deviceSupplies (.byte 9#8)) = .next t ∧ t.reg 3 ≠ demo.reg 3 :=
  ⟨⟨_, rfl, by decide⟩, _, rfl, by decide⟩

/-- `SSTORE r0, r0, r2` changes a word, `UNMAP r2` the free-list. -/
theorem test_witness_OnlyFourInstructionsChangeTheTable :
    (∃ t, step (demoAt 0x20000002#32) = .next t ∧ t.segs ≠ (demoAt 0x20000002#32).segs) ∧
    ∃ t, step (demoAt 0x90000002#32) = .next t ∧ t.freeList ≠ demo.freeList :=
  ⟨⟨_, rfl, by decide⟩, _, rfl, by decide⟩

/-- `OUTPUT r5`, the byte 255. -/
theorem test_witness_OutputOnlyGrowsByOneByte :
    ∃ t, step (demoAt 0xA0000005#32) = .next t ∧ t.out = [0xFF#8] := ⟨_, rfl, by decide⟩

theorem test_witness_StepsWithoutInputIgnoreTheStream :
    (∀ c, demo.wait ≠ some (.input c)) ∧ ∀ w c, demo.memRead 0#32 demo.pc = .ok w → decode w ≠ .input c := by
  refine ⟨by decide, fun w c h => ?_⟩
  rw [show demo.memRead 0#32 demo.pc = .ok 0x70000000#32 by decide] at h
  cases h
  decide +revert

/-- A store to the last word of segment 0 with `pc` there; a LOADP of segment 2 to its last word. -/
theorem test_witness_FetchSeesStoresAndLoadsAtOnce :
    (demo.setPc 2).Inv ∧ (demo.setPc 2).status = .running ∧ (demo.setPc 2).wait = none ∧
      (demo.setPc 2).reg 0 = 0#32 ∧ ((demo.setPc 2).reg 2).toNat = (demo.setPc 2).pc ∧
      (demo.setPc 2).pc < (demo.setPc 2).segLen 0#32 ∧
      demo.reg 2 ≠ 0#32 ∧ (demo.reg 1).toNat < demo.segLen (demo.reg 2) ∧
      ∃ t, exec (.loadp 2 1) demo = .next t ∧ t.status = .running :=
  ⟨demo.inv_setPc _ (by decide) test_demo_inv, rfl, rfl, by decide, by decide, by decide, by decide, by decide, _, rfl, by decide⟩

theorem test_witness_FaultsArePrecise :
    demo.status = .running ∧ ∃ t, exec (.div 1 2 0) demo = .next t ∧ t.status = .faulted := ⟨rfl, _, rfl, by decide⟩

/-- The first and the last illegal word; and a legal word, `DIV r1, r2, r0`, that faults. -/
theorem test_witness_IllegalOpcodesFault :
    14 ≤ (0xE0000000#32 : Word).toNat / 2 ^ 28 ∧ 14 ≤ (0xFFFFFFFF#32 : Word).toNat / 2 ^ 28 ∧
      (0x50000050#32 : Word).toNat / 2 ^ 28 < 14 ∧ demo.status = .running ∧
      ∃ t, exec (decode 0x50000050#32) demo = .next t ∧ t.status = .faulted :=
  ⟨by decide, by decide, by decide, rfl, _, rfl, by decide⟩

theorem test_witness_CmovMovesWhenConditionIsNonzero : demo.reg 4 ≠ 0#32 ∧ demo.reg 0 = 0#32 := by decide

theorem test_witness_DivIsUnsignedFloor : demo.reg 4 ≠ 0#32 ∧ demo.reg 0 = 0#32 := by decide

theorem test_witness_LoadvZeroExtends :
    (Instr.loadv 0 0).wf = true ∧ (Instr.loadv 7 (2 ^ 25 - 1)).wf = true ∧
      (0xD0000000#32 : Word).toNat / 2 ^ 28 = 13 ∧ (0xDFFFFFFF#32 : Word).toNat / 2 ^ 28 = 13 := by decide

/-- The last word of segment 2. -/
theorem test_witness_SloadReadsTheWord :
    demo.mapped (demo.reg 2) = true ∧ (demo.reg 1).toNat + 1 = demo.segLen (demo.reg 2) := by decide

/-- The first id out of range, the released id, the first offset out of range. -/
theorem test_witness_SloadFaults :
    demo.tlen = (demo.reg 3).toNat ∧ ((demo.reg 1).toNat < demo.tlen ∧ demo.reg 1 ∈ demo.freeList) ∧
      demo.mapped (demo.reg 2) = true ∧ demo.segLen (demo.reg 2) = (demo.reg 2).toNat := by decide

theorem test_witness_SstoreWritesOneWord :
    Memory.wf demo.segs = true ∧ demo.mapped (demo.reg 2) = true ∧
      (demo.reg 1).toNat + 1 = demo.segLen (demo.reg 2) := by decide

theorem test_witness_SstoreFaults :
    demo.tlen = (demo.reg 3).toNat ∧ ((demo.reg 1).toNat < demo.tlen ∧ demo.reg 1 ∈ demo.freeList) ∧
      demo.mapped (demo.reg 2) = true ∧ demo.segLen (demo.reg 2) = (demo.reg 2).toNat := by decide

/-- With a released id; with none; and at the bound exactly (a MAP of no words). -/
theorem test_witness_MapCreatesAZeroedSegment :
    (demo.Inv ∧ demo.freeList = [1#32] ∧ demo.cfg.memWordsMax = none) ∧
    (demoGrow.Inv ∧ demoGrow.freeList = [] ∧ demoGrow.tlen ≠ demoGrow.cfg.nsegMax ∧ demoGrow.cfg.memWordsMax = none) ∧
    (demoFull.Inv ∧ demoFull.cfg.memWordsMax = some 5 ∧ demoFull.mappedWords + (demoFull.reg 0).toNat = 5) :=
  ⟨⟨test_demo_inv, by decide⟩, ⟨test_demoGrow_inv, by decide⟩, test_demoFull_inv, by decide⟩

/-- The table full; one word too many. -/
theorem test_witness_MapBeyondCapacityFaults :
    (let s : State := { demoGrow with cfg := { Config.default with nsegMax := 2 } }
     s.freeList = [] ∧ s.tlen = s.cfg.nsegMax) ∧
    demoFull.cfg.memWordsMax = some 5 ∧ 5 < demoFull.mappedWords + (demoFull.reg 1).toNat := by decide

theorem test_witness_UnmapReleasesTheSegment : demo.mapped (demo.reg 2) = true ∧ demo.reg 2 ≠ 0#32 := by decide

theorem test_witness_UnmapFaults :
    demo.tlen ≤ (demo.reg 3).toNat ∧ ((demo.reg 1).toNat < demo.tlen ∧ demo.reg 1 ∈ demo.freeList) ∧
      demo.Inv ∧ demo.reg 0 = 0#32 := ⟨by decide, by decide, test_demo_inv, by decide⟩

theorem test_witness_MapReusesTheReleasedId :
    (demo.Inv ∧ demo.mapped (demo.reg 2) = true ∧ demo.reg 2 ≠ 0#32 ∧ demo.cfg.memWordsMax = none) ∧
    (demoFull.Inv ∧ demoFull.mapped (demoFull.reg 2) = true ∧ demoFull.reg 2 ≠ 0#32 ∧
      demoFull.cfg.memWordsMax = some 5 ∧ demoFull.mappedWords + (demoFull.reg 0).toNat = 5) :=
  ⟨⟨test_demo_inv, by decide⟩, test_demoFull_inv, by decide⟩

theorem test_witness_ReleasedIdsComeBackLastFirst :
    demoTwo.Inv ∧ demoTwo.cfg.memWordsMax = none ∧ demoTwo.mapped (demoTwo.reg 1) = true ∧
      demoTwo.mapped (demoTwo.reg 2) = true ∧ demoTwo.reg 1 ≠ demoTwo.reg 2 ∧ demoTwo.reg 1 ≠ 0#32 ∧
      demoTwo.reg 2 ≠ 0#32 := ⟨test_demoTwo_inv, by decide⟩

theorem test_witness_OutputAppendsOneByte :
    demo.wait = none ∧ demo.outReady = true ∧ (demo.reg 5).toNat = 255 ∧ (demo.reg 0).toNat = 0 := by decide

theorem test_witness_OutputAboveAByteFaults : (demo.reg 6).toNat = 256 ∧ 255 < (demo.reg 6).toNat := by decide

/-- A byte, the end mark, and end-of-input that persists. -/
theorem test_witness_InputTakesTheNextEvent :
    demo.wait = none ∧
    (let s := demo.deviceSupplies (.byte 0xFF#8)
     s.inputClosed = false ∧ s.input.arrived = [.byte 0xFF#8]) ∧
    (let s := demo.deviceSupplies .endOfInput
     s.inputClosed = false ∧ s.input.arrived = [.endOfInput]) ∧
    (let s := demo.setInput ⟨[], true, 1, true⟩
     s.input.ended = true ∧ s.cfg.eofSticky = true) := by decide

theorem test_witness_InputCompletesWhateverTheStream : demo.wait = none ∧ demo.inputReady = true := by decide

/-- A silent input device; an output device that does not take the byte. -/
theorem test_witness_IoWaitsForTheDevice :
    demo.status = .running ∧ demo.wait = none ∧ (demo.deviceSilent true).inputReady = false ∧
      (demo.deviceOutReady false).outReady = false ∧ ((demo.deviceOutReady false).reg 5).toNat = 255 := by decide

/-- A jump; a copy of segment 2 for segment 0 (within the bound of five words, since it is shorter). -/
theorem test_witness_LoadpLoadsAndJumps :
    (demo.reg 0 = 0#32 ∧ demo.cfg.wf = true) ∧
    (demoFull.Inv ∧ demoFull.reg 2 ≠ 0#32 ∧ demoFull.mapped (demoFull.reg 2) = true ∧
      demoFull.cfg.memWordsMax = some 5 ∧
      demoFull.mappedWords - demoFull.segLen 0#32 + demoFull.segLen (demoFull.reg 2) ≤ 5) :=
  ⟨by decide, test_demoFull_inv, by decide⟩

/-- The last clause with segments of 3 and 2 words and a bound of 3. -/
theorem test_witness_LoadpFaults :
    (demo.reg 3 ≠ 0#32 ∧ demo.tlen ≤ (demo.reg 3).toNat) ∧
    (demo.reg 1 ≠ 0#32 ∧ (demo.reg 1).toNat < demo.tlen ∧ demo.reg 1 ∈ demo.freeList) ∧
    (let s : State := { demo with cfg := { Config.default with memWordsMax := some 3 } }
     s.reg 2 ≠ 0#32 ∧ s.mapped (s.reg 2) = true ∧ s.cfg.memWordsMax = some 3 ∧
       3 < s.mappedWords - s.segLen 0#32 + s.segLen (s.reg 2)) ∧
    demo.reg 0 = 0#32 := by decide

/-- INPUT r0, an input device that never answers: after one step the machine waits. -/
def waitingRun : Option State := runState Config.default [0xB0#8, 0#8, 0#8, 0#8] (Environment.stream []) 1

/-- An output device that never takes a byte. -/
def neverTakes : Environment
  | 0 => [.outReady false]
  | _ + 1 => []

/-- An image one word too long, one that fits exactly; the waits and the loop (`LOADP r0, r0`) have witnesses of their own. -/
theorem test_witness_RunFollowsTheHostContract :
    ({ Config.default with imageWordsMax := 1 }).wf = true ∧
      ({ Config.default with imageWordsMax := 1 }).imageWordsMax < (imageWords (List.replicate 5 0#8)).length ∧
      (imageWords (List.replicate 4 0#8)).length ≤ ({ Config.default with imageWordsMax := 1 }).imageWordsMax ∧
      runImage Config.default [0x70#8] Environment.idle 1 = some 0 ∧
      runImage Config.default [0xE0#8] Environment.idle 1 = some 1 := by decide

theorem test_witness_RunFollowsTheHostContract_input :
    (∃ s, waitingRun = some s ∧ s.status = .running ∧ s.wait = some (.input 0) ∧ s.inputReady = false) ∧
      ∀ k, 1 ≤ k → ∀ m ∈ Environment.stream [] k, m = .silent true ∨ ∃ b, m = .outReady b := by
  refine ⟨⟨_, rfl, by decide⟩, fun k hk m hm => ?_⟩
  cases k with
  | zero => omega
  | succ k => cases hm

theorem test_witness_RunFollowsTheHostContract_output :
    (∃ s, runState Config.default [0xA0#8] neverTakes 1 = some s ∧ s.status = .running ∧
      s.wait = some (.output 0#8) ∧ s.outReady = false) ∧
      ∀ k, 1 ≤ k → .outReady true ∉ neverTakes k := by
  refine ⟨⟨_, rfl, by decide⟩, fun k hk hm => ?_⟩
  cases k with
  | zero => omega
  | succ k => cases hm

theorem test_witness_RunFollowsTheHostContract_loop :
    (∃ s, runState Config.default [0xC0#8] Environment.idle 0 = some s ∧ s.status = .running ∧
      runState Config.default [0xC0#8] Environment.idle (0 + 1) = some s) ∧
      ∀ k, 0 ≤ k → Environment.idle (k + 1) = Environment.idle k :=
  ⟨⟨_, rfl, by decide, by decide⟩, fun _ _ => rfl⟩

/-- R268, R196: `INPUT r0; HALT` with an answer that comes before the third step: two steps wait, the third reads it, the fourth
halts; the exit status is 0. -/
theorem test_run_with_late_answer :
    let env : Environment := fun k => if k = 0 then [.silent true] else if k = 2 then [.supplies (.byte 0x41#8)] else []
    let image := [0xB0#8, 0#8, 0#8, 0#8, 0x70#8]
    runImage Config.default image env 3 = none ∧ runImage Config.default image env 4 = some 0 ∧
      (runState Config.default image env 4).map (fun s => (s.reg 0, s.pc)) = some (0x41#32, 2) := by decide

/-- R268: the same image with a device that never answers has returned nothing. -/
theorem test_run_never_answered :
    runImage Config.default [0xB0#8, 0#8, 0#8, 0#8, 0x70#8] (Environment.stream []) 4 = none := by decide

end Sys2Proof.Tests
end

section
/-! PROOFS. The state (10_state.md): the invariant every step keeps, the segment table, the program counter, the
registers and the output. What an operation leaves alone is said first; each statement about a step then goes through
`step_cases` and `Effect`. -/

namespace Sys2Proof.Machine

section

variable (s : State)

/-! ### What an I/O instruction, an allocation and a fetch leave alone -/

/-- An I/O instruction, complete or waiting, changes registers, `OUT`, the input port and the wait only (R190, R194,
R196). -/
theorem State.tryIo_eq (w : IoWait) :
    ∃ r o p x, s.tryIo w = { s with regs := r, out := o, input := p, wait := x } := by
  cases w with
  | input c => rcases s.tryIo_input_form c with ⟨p, v, e⟩ | e <;> exact ⟨_, _, _, _, e⟩
  | output b => rcases s.tryIo_output_form b with e | e <;> exact ⟨_, _, _, _, e⟩

@[simp] theorem State.tryIo_segs (w : IoWait) : (s.tryIo w).segs = s.segs := by
  obtain ⟨_, _, _, _, e⟩ := s.tryIo_eq w; rw [e]

@[simp] theorem State.tryIo_freeList (w : IoWait) : (s.tryIo w).freeList = s.freeList := by
  obtain ⟨_, _, _, _, e⟩ := s.tryIo_eq w; rw [e]

@[simp] theorem State.tryIo_pc (w : IoWait) : (s.tryIo w).pc = s.pc := by
  obtain ⟨_, _, _, _, e⟩ := s.tryIo_eq w; rw [e]

/-- The one register an I/O instruction writes is the one an INPUT names (R194). -/
theorem State.tryIo_reg_ne (w : IoWait) (r : Reg) (h : (s.tryIo w).reg r ≠ s.reg r) : w = .input r := by
  cases w with
  | input c =>
    rcases s.tryIo_input_form c with ⟨p, v, e⟩ | e
    · by_cases hr : r = c
      · rw [hr]
      · exact absurd (by rw [e, State.reg_setWait, State.reg_setReg_of_ne _ _ _ _ hr, State.reg_setInput]) h
    · exact absurd (by rw [e, State.reg_setWait]) h
  | output b => rcases s.tryIo_output_form b with e | e <;> exact absurd (by rw [e]; rfl) h

/-- An I/O instruction emits nothing or one byte (R190). -/
theorem State.tryIo_out (w : IoWait) : (s.tryIo w).out = s.out ∨ ∃ b, (s.tryIo w).out = s.out ++ [b] := by
  cases w with
  | input c => rcases s.tryIo_input_form c with ⟨p, v, e⟩ | e <;> exact .inl (by rw [e]; rfl)
  | output b =>
    rcases s.tryIo_output_form b with e | e
    · exact .inr ⟨b, by rw [e]; rfl⟩
    · exact .inl (by rw [e]; rfl)

@[simp] theorem State.allocated_pc (n : Nat) : (s.allocated n).2.pc = s.pc := by rw [State.allocated_eq]

@[simp] theorem State.allocated_out (n : Nat) : (s.allocated n).2.out = s.out := by rw [State.allocated_eq]

@[simp] theorem State.allocated_reg (n : Nat) (r : Reg) : (s.allocated n).2.reg r = s.reg r := by
  rw [State.allocated_eq]; rfl

/-- With a released id at hand an allocation takes the top of the free-list (R42, R68). -/
theorem State.allocated_of_cons (n : Nat) (id : Word) (rest : List Word) (h : s.freeList = id :: rest) :
    s.allocated n = (id, (s.setFreeList rest).setSeg id (Segment.zero n)) := by
  simp [State.allocated, h]

/-- After the fetch of a word the invariant still holds (R34). -/
theorem State.inv_advancePc_of_fetched (w : Word) (hi : s.Inv) (h : s.memRead 0#32 s.pc = .ok w) :
    s.advancePc.Inv := by
  obtain ⟨_, hin, _⟩ := (s.memRead_eq_ok_iff _ _ _).1 h
  exact s.inv_advancePc hi hin

end

section

variable {s t : State} {i : Instr}

/-! ### The invariant -/

/-- Every instruction keeps the invariant, from the state of a running machine after its fetch. -/
theorem Effect.inv (e : Effect s i t) (hi : s.Inv) (hr : s.status = .running) (hw : s.wait = none) : t.Inv := by
  cases e with
  | keep a b c => exact hi
  | reg i a v _ _ _ => exact s.inv_setReg a v hi
  | fault i c hc => exact s.inv_raiseFault c hi hr hw fun h => noCause_not_mem_causesOf i (h ▸ hc)
  | halt => exact s.inv_stopRun _ hi hr hw (by decide)
  | store a b c h1 h2 => exact s.inv_setSeg _ _ hi h1 (Segment.put_wf _ _ _ (s.seg_wf _ hi.mem_wf) h2)
  | map b c h =>
    have hn : (s.reg c).toNat ≤ maxSegLen := Nat.le_pred_of_lt (s.reg c).isLt
    exact State.inv_setReg _ _ _ (s.inv_allocated _ hi hn ((s.allocateCheck_none_iff _).1 h).1)
  | unmap c h1 h2 => exact s.inv_release _ hi h1 h2
  | jump b c _ => exact s.inv_setPc _ (s.reg c).isLt hi
  | load b c _ _ _ =>
    exact State.inv_setPc _ _ (s.reg c).isLt
      (s.inv_setSeg _ _ hi (s.mapped_zero_of_inv hi) (s.seg_wf _ hi.mem_wf))
  | input c => exact s.inv_tryIo _ hi hr
  | output c b _ => exact s.inv_tryIo _ hi hr

theorem step_inv (hi : s.Inv) (h : step s = .next t) : t.Inv := by
  rcases step_cases s t h with ⟨_, rfl⟩ | ⟨hr, w, _, rfl⟩ | ⟨hr, hw, rfl⟩ | ⟨hr, hw, c, hc, rfl⟩ | ⟨hr, hw, w, hm, e⟩
  · exact hi
  · exact s.inv_tryIo w hi hr
  · exact s.inv_stopRun _ hi hr hw (by decide)
  · exact s.inv_raiseFault c hi hr hw hc
  · exact e.inv (s.inv_advancePc_of_fetched w hi hm) hr hw

end

/-- Settles O14: the step's cases (`step_cases`), and for the instruction run, its effects (`Effect.inv`). -/
theorem stepKeepsTheInvariant : Obligations.StepKeepsTheInvariant :=
  fun _ _ hi h => step_inv hi h

/-- A reset with an image meets the invariant: segment 0 is the image, and nothing has been released (R262). -/
theorem State.inv_boot (cfg : Config) (image : List Byte) (s : State) (hc : cfg.wf = true)
    (h : State.boot cfg image = some s) : s.Inv := by
  obtain ⟨hlen, rfl⟩ := (State.boot_eq_some_iff cfg image s).1 h
  obtain ⟨_, _, hn, _, hmax, _⟩ := (Config.wf_iff cfg).1 hc
  exact {
    cfg_wf := hc
    tlen_pos := Nat.le_refl 1
    tlen_le := hn
    fl_range := by simp [State.reset]
    fl_nodup := List.nodup_nil
    mem_wf := by simpa [Memory.wf] using Segment.ofWords_wf _ (le_trans hlen hmax)
    fl_dropped := by simp [State.reset]
    stop_reason := by simp [State.reset]
    fault_cause := by simp [State.reset]
    wait_running := by simp [State.reset]
    pc_lt := by simp [State.reset] }

/-- Settles O12: `State.reset` is the reset with the image of zero bytes (R264). -/
theorem resetMeetsTheInvariant : Obligations.ResetMeetsTheInvariant :=
  State.inv_boot Config.default [] State.reset (by decide) rfl

theorem Reachable.inv {s : State} (h : Reachable s) : s.Inv := by
  induction h with
  | boot cfg image s hc hb => exact State.inv_boot cfg image s hc hb
  | step s t _ hs ih => exact step_inv ih hs
  | device s m _ ih => exact s.inv_deviceMove m ih

/-! ### The free-list -/

/-- The ids on the free-list are distinct numbers in `1 .. TLEN-1`, so there are at most `TLEN - 1` (R44 iv). -/
theorem State.freeList_length_le (s : State) (hi : s.Inv) : s.freeList.length ≤ s.tlen - 1 := by
  have hnd : (s.freeList.map BitVec.toNat).Nodup := hi.fl_nodup.map fun _ _ => BitVec.eq_of_toNat_eq
  have hsub : s.freeList.map BitVec.toNat ⊆ List.range' 1 (s.tlen - 1) := by
    intro k hk
    obtain ⟨id, hid, rfl⟩ := List.mem_map.1 hk
    have := hi.fl_range id hid
    rw [List.mem_range'_1]
    omega
  simpa using (hnd.subperm hsub).length_le

theorem State.segCheck_out_of_range_iff (s : State) (id : Word) :
    s.segCheck id = some .segmentIdOutOfRange ↔ s.tlen ≤ id.toNat := by
  refine ⟨fun h => ?_, s.segCheck_of_out_of_range id⟩
  by_contra hlt
  by_cases hf : id ∈ s.freeList
  · rw [s.segCheck_of_unmapped id (by omega) hf] at h
    cases h
  · rw [s.segCheck_of_mapped id ((s.mapped_iff id).2 ⟨by omega, hf⟩)] at h
    cases h

theorem State.segCheck_unmapped_iff (s : State) (id : Word) :
    s.segCheck id = some .segmentUnmapped ↔ id.toNat < s.tlen ∧ id ∈ s.freeList := by
  refine ⟨fun h => ?_, fun ⟨hlt, hf⟩ => s.segCheck_of_unmapped id hlt hf⟩
  by_contra hn
  rcases Nat.lt_or_ge id.toNat s.tlen with hlt | hge
  · have hmapped : s.mapped id = true := (s.mapped_iff id).2 ⟨hlt, fun hf => hn ⟨hlt, hf⟩⟩
    rw [s.segCheck_of_mapped id hmapped] at h
    cases h
  · rw [s.segCheck_of_out_of_range id hge] at h
    cases h

/-- Settles O15: a reachable state meets the invariant, which has R44's four. -/
theorem reachableStatesMeetR44 : Obligations.ReachableStatesMeetR44 := by
  intro s h
  have hi := h.inv
  exact ⟨fun id => ⟨s.mapped_iff id, s.segCheck_out_of_range_iff id, s.segCheck_unmapped_iff id⟩, hi.fl_range,
    hi.fl_nodup, s.mapped_zero_of_inv hi, s.freeList_length_le hi⟩

/-- A MAP that finds an id on the free-list, memory being unbounded, answers that id and takes it off (R68, R176). -/
theorem execMap_pops (s : State) (b c : Reg) (id : Word) (rest : List Word) (hfl : s.freeList = id :: rest)
    (hmem : s.cfg.memWordsMax = none) :
    ∃ t, exec (.map b c) s = .next t ∧ t.reg b = id ∧ t.freeList = rest ∧ t.tlen = s.tlen ∧ t.cfg = s.cfg := by
  have hc : s.allocateCheck (s.reg c).toNat = none := by
    rw [State.allocateCheck_none_iff]
    simp [hfl, hmem]
  refine ⟨_, execMap_ok s b c hc, ?_⟩
  rw [s.allocated_of_cons _ id rest hfl]
  exact ⟨State.reg_setReg_self _ _ _, rfl, by simp, rfl⟩

/-- Settles O51: each UNMAP pushes its id and each MAP pops the top. -/
theorem releasedIdsComeBackLastFirst : Obligations.ReleasedIdsComeBackLastFirst := by
  intro b1 b2 c1 c2 d1 d2 s _ hmem hm1 hm2 hne h1 h2
  have hm2' : (s.release (s.reg c1)).mapped (s.reg c2) = true := by
    rw [← State.segCheck_none_iff, s.segCheck_release_ne _ _ hne.symm]
    exact s.segCheck_of_mapped _ hm2
  obtain ⟨u1, hu1, hr1, hf1, hl1, hc1⟩ :=
    execMap_pops ((s.release (s.reg c1)).release (s.reg c2)) b1 d1 (s.reg c2) (s.reg c1 :: s.freeList) rfl hmem
  obtain ⟨u2, hu2, hr2, hf2, hl2, _⟩ :=
    execMap_pops u1 b2 d2 (s.reg c1) s.freeList hf1 (by rw [hc1]; exact hmem)
  exact ⟨_, _, u1, u2, execUnmap_ok s c1 hm1 h1, execUnmap_ok (s.release (s.reg c1)) c2 hm2' h2, hu1, hu2, hr1, hr2,
    hf2, by rw [hl2, hl1, State.tlen_release, State.tlen_release]⟩

/-! ### The segment table -/

section

variable {s t : State} {i : Instr}

/-- A step leaves the table and the parameters alone, or it runs the word at `(0, pc)`. -/
theorem step_same_table_or_effect (h : step s = .next t) :
    (t.segs = s.segs ∧ t.freeList = s.freeList ∧ t.cfg = s.cfg) ∨
    ∃ w, s.memRead 0#32 s.pc = .ok w ∧ Effect s.advancePc (decode w) t := by
  rcases step_cases s t h with ⟨_, rfl⟩ | ⟨_, w, _, rfl⟩ | ⟨_, _, rfl⟩ | ⟨_, _, c, _, rfl⟩ | ⟨_, _, w, hm, e⟩
  · exact .inl ⟨rfl, rfl, rfl⟩
  · exact .inl ⟨s.tryIo_segs w, s.tryIo_freeList w, s.tryIo_cfg w⟩
  · exact .inl ⟨rfl, rfl, rfl⟩
  · exact .inl ⟨rfl, rfl, rfl⟩
  · exact .inr ⟨w, hm, e⟩

/-- No instruction takes the mapped words past MEM_WORDS_MAX: MAP and LOADP check the total they lead to, and no other
instruction adds to it (R49, R75). -/
theorem Effect.withinMemory (e : Effect s i t) (hi : s.Inv) (hw : s.WithinMemory) : t.WithinMemory := by
  intro m hm
  rw [e.cfg_eq] at hm
  have hle := hw m hm
  cases e with
  | store a b c h1 _ =>
    have htotal := s.mappedWords_setSeg (s.reg a) ((s.seg (s.reg a)).put (s.reg b).toNat (s.reg c)) hi h1
    rw [Segment.len_put, ← State.segLen] at htotal
    omega
  | map b c hc =>
    obtain ⟨hcap, hmax⟩ := (s.allocateCheck_none_iff _).1 hc
    rw [State.mappedWords_setReg, s.mappedWords_allocated _ hi hcap]
    exact hmax m hm
  | unmap c _ _ => exact le_trans (s.mappedWords_release_le _ hi) hle
  | load b c _ _ hc =>
    have hmax := (s.duplicateCheck_none_iff _).1 hc m hm
    have h0 := s.mapped_zero_of_inv hi
    have htotal := s.mappedWords_setSeg 0#32 (s.seg (s.reg b)) hi h0
    have hpart := s.segLen_le_mappedWords 0#32 hi h0
    rw [← State.segLen] at htotal
    rw [State.mappedWords_setPc]
    omega
  | input c => rw [s.mappedWords_congr _ (s.tryIo_segs _) (s.tryIo_freeList _)]; exact hle
  | output c b _ => rw [s.mappedWords_congr _ (s.tryIo_segs _) (s.tryIo_freeList _)]; exact hle
  | _ => exact hle

/-- An instruction leaves `TLEN` as it is, or is a MAP that found the free-list empty (R41, R68). -/
theorem Effect.tlen_eq_or_map (e : Effect s i t) (hi : s.Inv) :
    t.tlen = s.tlen ∨ (t.tlen = s.tlen + 1 ∧ s.freeList = [] ∧ ∃ b c, i = .map b c) := by
  cases e with
  | store a b c _ _ => exact .inl (s.tlen_setSeg _ _)
  | map b c hc =>
    obtain ⟨hpop, hgrow, _⟩ := s.allocated_spec (s.reg c).toNat hi ((s.allocateCheck_none_iff _).1 hc).1
    rcases hfl : s.freeList with _ | ⟨top, rest⟩
    · exact .inr ⟨(hgrow hfl).2.2, rfl, b, c, rfl⟩
    · exact .inl (hpop top rest hfl).2.2
  | unmap c _ _ => exact .inl (s.tlen_release _)
  | load b c _ _ _ => exact .inl (s.tlen_setSeg _ _)
  | input c => exact .inl (by simp [State.tlen])
  | output c b _ => exact .inl (by simp [State.tlen])
  | _ => exact .inl rfl

/-- A segment that stays mapped keeps its length, unless it is segment 0 and the instruction is LOADP (R43, R45): the id
a MAP answers was not mapped before, and the id an UNMAP releases is not mapped after. -/
theorem Effect.segLen_eq_or_loadp (e : Effect s i t) (hi : s.Inv) (id : Word) (hs : s.mapped id = true)
    (ht : t.mapped id = true) : t.segLen id = s.segLen id ∨ (id = 0#32 ∧ ∃ b c, i = .loadp b c) := by
  cases e with
  | store a b c h1 h2 =>
    obtain ⟨_, _, hlen⟩ := s.reads_after_store _ _ (s.reg c) hi.mem_wf h1 h2
    exact .inl (hlen id)
  | map b c hc =>
    obtain ⟨_, _, _, hnew, _, _, hother⟩ :=
      s.allocated_spec (s.reg c).toNat hi ((s.allocateCheck_none_iff _).1 hc).1
    have hne : id ≠ (s.allocated (s.reg c).toNat).1 := by rintro rfl; simp [hs] at hnew
    exact .inl (congrArg Segment.len (hother id hne).2)
  | unmap c _ _ =>
    have hne : id ≠ s.reg c := by rintro rfl; simp [State.mapped_iff] at ht
    exact .inl (congrArg Segment.len (s.seg_release_ne _ _ hne))
  | load b c _ _ _ =>
    by_cases h0 : id = 0#32
    · exact .inr ⟨h0, b, c, rfl⟩
    · exact .inl (congrArg Segment.len (s.seg_setSeg_ne _ _ _ h0))
  | input c => exact .inl (by simp [State.segLen, State.seg])
  | output c b _ => exact .inl (by simp [State.segLen, State.seg])
  | _ => exact .inl rfl

end

/-- Settles O16: a step leaves the table alone, or runs an instruction, which stays within memory. -/
theorem stepStaysWithinMemory : Obligations.StepStaysWithinMemory := by
  intro s t hi hw h
  rcases step_same_table_or_effect h with ⟨hsegs, hfl, hcfg⟩ | ⟨w, hm, e⟩
  · intro m hmax
    rw [s.mappedWords_congr t hsegs hfl]
    exact hw m (hcfg ▸ hmax)
  · exact e.withinMemory (s.inv_advancePc_of_fetched w hi hm) hw

/-- Settles O17: what an instruction does to `TLEN` is `Effect.tlen_eq_or_map`. -/
theorem tableGrowsOnlyByMap : Obligations.TableGrowsOnlyByMap := by
  intro s t hi h
  rcases step_same_table_or_effect h with ⟨hsegs, _, _⟩ | ⟨w, hm, e⟩
  · exact .inl (congrArg List.length hsegs)
  · rcases e.tlen_eq_or_map (s.inv_advancePc_of_fetched w hi hm) with hl | ⟨hl, hfl, b, c, hd⟩
    · exact .inl hl
    · exact .inr ⟨hl, hfl, w, b, c, hm, hd⟩

/-- Settles O18: what an instruction does to a length is `Effect.segLen_eq_or_loadp`. -/
theorem mappedLengthsNeverChange : Obligations.MappedLengthsNeverChange := by
  intro s t id hi h hs ht
  rcases step_same_table_or_effect h with ⟨hsegs, _, _⟩ | ⟨w, hm, e⟩
  · exact .inl (by simp [State.segLen, State.seg, hsegs])
  · rcases e.segLen_eq_or_loadp (s.inv_advancePc_of_fetched w hi hm) id hs ht with hl | ⟨h0, b, c, hd⟩
    · exact .inl hl
    · exact .inr ⟨h0, w, b, c, hm, hd⟩

/-! ### Canonical segments -/

theorem cellsWf_cons_iff (lo len k : Nat) (v : Word) (rest : List Cell) :
    cellsWf lo len ((k, v) :: rest) = true ↔ lo ≤ k ∧ k < len ∧ v ≠ 0#32 ∧ cellsWf (k + 1) len rest = true := by
  simp [cellsWf, and_assoc]

/-- Nothing is listed at or beyond the length. -/
theorem cellRead_beyond (lo len : Nat) (cs : List Cell) (off : Nat) (hw : cellsWf lo len cs = true) (h : len ≤ off) :
    cellRead cs off = 0#32 := by
  induction cs generalizing lo with
  | nil => rfl
  | cons kv rest ih =>
    obtain ⟨k, v⟩ := kv
    obtain ⟨_, hk, _, hr⟩ := (cellsWf_cons_iff ..).1 hw
    rw [cellRead, if_neg (by omega), ih (k + 1) hr]

/-- The first offset listed does not read as 0. -/
theorem cellRead_head_ne_zero (lo len k : Nat) (v : Word) (rest : List Cell)
    (hw : cellsWf lo len ((k, v) :: rest) = true) : cellRead ((k, v) :: rest) k ≠ 0#32 := by
  obtain ⟨_, _, hv, _⟩ := (cellsWf_cons_iff ..).1 hw
  rwa [cellRead, if_pos rfl]

/-- Of two canonical lists of cells that read alike neither begins before the other: below its first offset a list reads
as 0, at the first it does not. -/
theorem cells_head_le (lo len k j : Nat) (v u : Word) (cs ds : List Cell) (hc : cellsWf lo len ((k, v) :: cs) = true)
    (hd : cellsWf lo len ((j, u) :: ds) = true) (h : ∀ off, cellRead ((k, v) :: cs) off = cellRead ((j, u) :: ds) off) :
    j ≤ k := by
  by_contra hlt
  obtain ⟨_, hj, hu, hr⟩ := (cellsWf_cons_iff ..).1 hd
  have hd' : cellsWf j len ((j, u) :: ds) = true := (cellsWf_cons_iff ..).2 ⟨Nat.le_refl j, hj, hu, hr⟩
  exact cellRead_head_ne_zero lo len k v cs hc ((h k).trans (cellRead_below j len _ k hd' (by omega)))

/-- Canonical cells that read alike are equal. -/
theorem cells_ext (lo len : Nat) (cs ds : List Cell) (hc : cellsWf lo len cs = true) (hd : cellsWf lo len ds = true)
    (h : ∀ off, cellRead cs off = cellRead ds off) : cs = ds := by
  induction cs generalizing lo ds with
  | nil =>
    cases ds with
    | nil => rfl
    | cons ju ds => exact absurd (h ju.1).symm (cellRead_head_ne_zero lo len ju.1 ju.2 ds hd)
  | cons kv cs ih =>
    obtain ⟨k, v⟩ := kv
    cases ds with
    | nil => exact absurd (h k) (cellRead_head_ne_zero lo len k v cs hc)
    | cons ju ds =>
      obtain ⟨j, u⟩ := ju
      obtain rfl : k = j :=
        Nat.le_antisymm (cells_head_le lo len j k u v ds cs hd hc fun off => (h off).symm)
          (cells_head_le lo len k j v u cs ds hc hd h)
      obtain rfl : v = u := by simpa [cellRead] using h k
      obtain ⟨_, _, _, hcr⟩ := (cellsWf_cons_iff ..).1 hc
      obtain ⟨_, _, _, hdr⟩ := (cellsWf_cons_iff ..).1 hd
      have htail : ∀ off, cellRead cs off = cellRead ds off := by
        intro off
        by_cases hoff : off = k
        · rw [cellRead_below (k + 1) len cs off hcr (by omega), cellRead_below (k + 1) len ds off hdr (by omega)]
        · simpa [cellRead, Ne.symm hoff] using h off
      rw [ih (k + 1) ds hcr hdr htail]

/-- Settles O19: beyond the length both read as 0, so the cells read alike everywhere (`cells_ext`). -/
theorem canonicalSegmentsAreEqual : Obligations.CanonicalSegmentsAreEqual := by
  rintro ⟨n, cs⟩ ⟨m, ds⟩ hg hh hlen hw
  obtain rfl : n = m := hlen
  obtain ⟨_, hc⟩ := (Segment.wf_iff _).1 hg
  obtain ⟨_, hd⟩ := (Segment.wf_iff _).1 hh
  have hread : ∀ off, cellRead cs off = cellRead ds off := by
    intro off
    by_cases hoff : off < n
    · exact hw off hoff
    · rw [cellRead_beyond 0 n cs off hc (by omega), cellRead_beyond 0 n ds off hd (by omega)]
  rw [cells_ext 0 n cs ds hc hd hread]

/-! ### The step -/

section

variable (s : State)

theorem step_of_over (h : s.status ≠ .running) : step s = .next s := by
  rw [step_eq_stepped, s.stepped_of_over h]

/-- At the end of segment 0 the run stops normally (R35). -/
theorem step_at_end (hr : s.status = .running) (hw : s.wait = none) (h : s.pc = s.segLen 0#32) :
    step s = .next (s.stopRun .endOfProgram) :=
  step_of_ended s _ (by simp [State.sequence, State.fetch, hr, hw, h])

/-- Beyond the end PC_PAST_END decides (R35). -/
theorem step_past_end (hr : s.status = .running) (hw : s.wait = none) (h : s.segLen 0#32 < s.pc) :
    step s = .next s.pastEnd :=
  step_of_ended s _ (by simp [State.sequence, State.fetch, hr, hw, h, h.ne'])

/-- Inside segment 0 of a state that meets the invariant there is a word to fetch. -/
theorem State.memRead_pc_of_inv (hi : s.Inv) (h : s.pc < s.segLen 0#32) :
    s.memRead 0#32 s.pc = .ok ((s.seg 0#32).word s.pc) :=
  s.memRead_ok _ _ (s.mapped_zero_of_inv hi) h

end

/-- Settles O11: each field of `State.reset`, and its eight registers one by one. -/
theorem resetClearsRegistersAndPc : Obligations.ResetClearsRegistersAndPc :=
  ⟨by decide, rfl, rfl, rfl, rfl, rfl, rfl, rfl⟩

/-- Settles O33: the codes are evaluated. -/
theorem statusReasonAndCauseCodes : Obligations.StatusReasonAndCauseCodes :=
  ⟨rfl, rfl, rfl⟩

/-- Settles O20: `step_of_fetched`, and the increment of a `pc` inside segment 0 does not wrap. -/
theorem stepRunsTheFetchedInstruction : Obligations.StepRunsTheFetchedInstruction := by
  refine ⟨fun s w hr hw h => ⟨step_of_fetched s w hr hw h, decode_wf w, fun hi => ?_⟩, State.memRead_pc_of_inv⟩
  obtain ⟨_, hin, _⟩ := (s.memRead_eq_ok_iff _ _ _).1 h
  have hpc := s.advancePc_pc_of_inv hi hin
  exact ⟨hpc, hpc ▸ (s.inv_advancePc hi hin).pc_lt⟩

/-- Settles O21: the two ends of the sequencer, `step_at_end` and `step_past_end`. -/
theorem endOfProgramStopsTheRun : Obligations.EndOfProgramStopsTheRun := by
  intro s hr hw
  refine ⟨fun h => ⟨_, step_at_end s hr hw h, rfl, rfl⟩, fun h hc => ?_, fun h hc => ?_⟩
  · rw [step_past_end s hr hw h, State.pastEnd, hc]; rfl
  · rw [step_past_end s hr hw h, State.pastEnd, hc]; rfl

/-- A run of the core makes the first step and goes on from there. -/
theorem core_run_succ (s t : State) (n : Nat) (h : step s = .next t) :
    Host.Core.run core (n + 1) s = Host.Core.run core n t := by
  have hcore : core.step s = .next t := h
  simp only [Host.Core.run, hcore]

/-- Settles O22, by induction on the number of steps. -/
theorem terminalStatesNeverChange : Obligations.TerminalStatesNeverChange := by
  intro s n hs
  induction n with
  | zero => exact ⟨rfl, rfl⟩
  | succ n ih =>
    obtain ⟨hrun, hafter⟩ := ih
    constructor
    · rw [core_run_succ s s n (step_of_over s hs), hrun]
    · rw [State.after, s.stepped_of_over hs, hafter]

/-! ### The program counter, the registers and `OUT` -/

section

variable {s t : State} {i : Instr}

/-- An instruction that is no LOADP leaves `pc` as it is (R32). -/
theorem Effect.pc_eq (e : Effect s i t) (h : ∀ b c, i ≠ .loadp b c) : t.pc = s.pc := by
  cases e with
  | map b c _ => rw [State.setReg_pc, State.allocated_pc]
  | jump b c _ => exact absurd rfl (h b c)
  | load b c _ _ _ => exact absurd rfl (h b c)
  | input c => exact s.tryIo_pc _
  | output c b _ => exact s.tryIo_pc _
  | _ => rfl

/-- LOADP sets `pc` or faults (R200, R201). -/
theorem Effect.loadp_pc {b c : Reg} (e : Effect s (.loadp b c) t) :
    t.pc = (s.reg c).toNat % 2 ^ s.cfg.pcw ∨ ∃ k, t = s.raiseFault k := by
  cases e with
  | reg _ a v hd _ _ => cases hd
  | fault _ k _ => exact .inr ⟨k, rfl⟩
  | jump _ _ _ => exact .inl rfl
  | load _ _ _ _ _ => exact .inl rfl

/-- The one register an instruction changes is its destination (R23). -/
theorem Effect.destReg_of_reg_ne (e : Effect s i t) (r : Reg) (h : t.reg r ≠ s.reg r) : destReg i = some r := by
  cases e with
  | reg _ a v hd _ _ =>
    by_cases hr : r = a
    · rw [hr]; exact hd
    · exact absurd (s.reg_setReg_of_ne a r v hr) h
  | map b c _ =>
    by_cases hr : r = b
    · rw [hr]; rfl
    · exact absurd (by rw [State.reg_setReg_of_ne _ _ _ _ hr, State.allocated_reg]) h
  | input c => cases s.tryIo_reg_ne _ r h; rfl
  | output c b _ => cases s.tryIo_reg_ne _ r h
  | _ => exact absurd rfl h

/-- An instruction leaves `OUT` as it is or appends one byte (R50). -/
theorem Effect.out_eq_or_append (e : Effect s i t) : t.out = s.out ∨ ∃ b, t.out = s.out ++ [b] := by
  cases e with
  | map b c _ => exact .inl (s.allocated_out _)
  | input c => exact s.tryIo_out _
  | output c b _ => exact s.tryIo_out _
  | _ => exact .inl rfl

end

/-- Settles O24: `Effect.pc_eq` and `Effect.loadp_pc`; a register's value fits the counter (`State.pc_fits`). -/
theorem onlyLoadpSetsThePc : Obligations.OnlyLoadpSetsThePc := by
  intro i s t h
  have e := exec_effect s i t h
  refine ⟨e.pc_eq, ?_⟩
  rintro b c rfl
  rcases e.loadp_pc with hpc | ⟨k, rfl⟩
  · exact .inl ⟨hpc, fun hc => hpc.trans (s.pc_fits _ hc (s.reg c).isLt)⟩
  · exact .inr rfl

/-- Settles O27: the step's cases, with `State.tryIo_reg_ne` for a wait and `Effect.destReg_of_reg_ne` for an
instruction. -/
theorem onlyTheDestinationRegisterChanges : Obligations.OnlyTheDestinationRegisterChanges := by
  intro s t r h hne
  rcases step_cases s t h with ⟨_, rfl⟩ | ⟨hr, w, hw, rfl⟩ | ⟨_, _, rfl⟩ | ⟨_, _, c, _, rfl⟩ | ⟨hr, hw, w, hm, e⟩
  · exact absurd rfl hne
  · exact ⟨hr, .inl (by rw [hw, s.tryIo_reg_ne w r hne])⟩
  · exact absurd rfl hne
  · exact absurd rfl hne
  · exact ⟨hr, .inr ⟨hw, w, hm, e.destReg_of_reg_ne r hne⟩⟩

/-- Settles O29: the step's cases, with `State.tryIo_out` for a wait and `Effect.out_eq_or_append` for an instruction. -/
theorem outputOnlyGrowsByOneByte : Obligations.OutputOnlyGrowsByOneByte := by
  intro s t h
  rcases step_cases s t h with ⟨_, rfl⟩ | ⟨_, w, _, rfl⟩ | ⟨_, _, rfl⟩ | ⟨_, _, c, _, rfl⟩ | ⟨_, _, w, _, e⟩
  · exact .inl rfl
  · exact s.tryIo_out w
  · exact .inl rfl
  · exact .inl rfl
  · exact e.out_eq_or_append

/-! ### Placing a word (log entry 9) -/

/-- A segment lengthened to hold a word reads as that word there, and is long enough. -/
theorem Segment.withWord_spec (g : Segment) (off : Nat) (w : Word) (hg : g.wf = true) (hoff : off < maxSegLen) :
    off < (g.withWord off w).len ∧ (g.withWord off w).word off = w := by
  obtain ⟨hlen, hcells⟩ := (Segment.wf_iff g).1 hg
  refine ⟨lt_of_lt_of_le (Nat.lt_succ_self off) (le_max_right g.len (off + 1)), Segment.word_put_self _ off w ?_⟩
  exact (Segment.wf_iff _).2 ⟨max_le hlen hoff, cellsWf_len_mono 0 _ _ _ hcells (le_max_left _ _)⟩

/-- After a word is placed in segment 0 the table begins with a segment that holds it. -/
theorem Memory.withProgramWord_head (m : Memory) (off : Nat) (w : Word) (hm : Memory.wf m = true) :
    ∃ (g : Segment) (rest : Memory), g.wf = true ∧ Memory.withProgramWord m off w = g.withWord off w :: rest := by
  cases m with
  | nil => exact ⟨Segment.empty, [], Segment.empty_wf, rfl⟩
  | cons g rest => exact ⟨g, rest, (Memory.wf_iff _).1 hm g List.mem_cons_self, rfl⟩

/-- A placed word is the one at `(0, pc)`. -/
theorem State.memRead_plant (s : State) (w : Word) (hm : Memory.wf s.segs = true) :
    (s.plant w).memRead 0#32 (s.plant w).pc = .ok w := by
  have hpc : (s.plant w).pc < maxSegLen := by
    simp only [State.plant]
    split
    · assumption
    · decide
  obtain ⟨g, rest, hg, hsegs⟩ := Memory.withProgramWord_head s.segs (s.plant w).pc w hm
  have hsegs' : (s.plant w).segs = g.withWord (s.plant w).pc w :: rest := hsegs
  have hseg : (s.plant w).seg 0#32 = g.withWord (s.plant w).pc w := by simp [State.seg, hsegs']
  obtain ⟨hlen, hword⟩ := g.withWord_spec (s.plant w).pc w hg hpc
  rw [State.memRead_eq_ok_iff, State.mapped_iff, State.segLen, hseg]
  refine ⟨⟨by simp [State.tlen, hsegs'], by simp [State.plant]⟩, hlen, hword⟩

/-- Settles O25: the placed word is fetched (`State.memRead_plant`), and run (`step_of_fetched`). -/
theorem placedWordIsRunNext : Obligations.PlacedWordIsRunNext := by
  intro s w hw hm
  have hword : tableWord 32 w = BitVec.ofNat 32 w := by rw [tableWord, Nat.mod_eq_of_lt hw]
  have hread := s.memRead_plant (BitVec.ofNat 32 w) hm
  rw [State.withFetchWord, hword]
  exact step_of_fetched _ _ rfl rfl hread

/-! ### The width of the program counter -/

/-- The state with another PCW. -/
def State.withPcw (s : State) (n : Nat) : State := { s with cfg := { s.cfg with pcw := n } }

section

variable (s : State) (n : Nat)

@[simp] theorem State.withPcw_freeList : (s.withPcw n).freeList = s.freeList := rfl
@[simp] theorem State.reg_withPcw (r : Reg) : (s.withPcw n).reg r = s.reg r := rfl
@[simp] theorem State.allocateCheck_withPcw (k : Nat) : (s.withPcw n).allocateCheck k = s.allocateCheck k := rfl
@[simp] theorem State.duplicateCheck_withPcw (id : Word) : (s.withPcw n).duplicateCheck id = s.duplicateCheck id := rfl

/-- A value below 2^32 is held whole by a counter of either width (R28, R34). -/
theorem State.setPc_withPcw (v : Nat) (hs : 32 ≤ s.cfg.pcw) (hn : 32 ≤ n) (hv : v < 2 ^ 32) :
    (s.withPcw n).setPc v = (s.setPc v).withPcw n := by
  have hmod : ∀ k, 32 ≤ k → v % 2 ^ k = v := fun k hk =>
    Nat.mod_eq_of_lt (lt_of_lt_of_le hv (Nat.pow_le_pow_right (by decide) hk))
  have hpc : v % 2 ^ n = v % 2 ^ s.cfg.pcw := by rw [hmod n hn, hmod _ hs]
  simp only [State.setPc, State.withPcw, hpc]

theorem State.pastEnd_withPcw : (s.withPcw n).pastEnd = s.pastEnd.withPcw n := by
  have hp : (s.withPcw n).cfg.pcPastEnd = s.cfg.pcPastEnd := rfl
  cases h : s.cfg.pcPastEnd <;> simp only [State.pastEnd, hp, h] <;> rfl

theorem State.conclude_withPcw {r r' : Except Cause State} (h : r' = r.map fun t => t.withPcw n) :
    (s.withPcw n).conclude r' = (s.conclude r).withPcw n := by
  subst h
  cases r <;> rfl

theorem checked_map (f : State → State) (k : Option Cause) (e : Except Cause State) :
    checked k (e.map f) = (checked k e).map f := by
  cases k <;> rfl

theorem State.allocate_withPcw (k : Nat) :
    (s.withPcw n).allocate k = (s.allocate k).map fun r => (r.1, r.2.withPcw n) := by
  have halloc : (s.withPcw n).allocated k = ((s.allocated k).1, (s.allocated k).2.withPcw n) := by
    rcases h : s.freeList with _ | ⟨id, rest⟩ <;> simp only [State.allocated, State.withPcw_freeList, h] <;> rfl
  simp only [State.allocate, halloc, State.allocateCheck_withPcw]
  cases s.allocateCheck k <;> rfl

theorem State.consumeInput_withPcw : (s.withPcw n).consumeInput = s.consumeInput.withPcw n :=
  (apply_ite (fun t : State => t.withPcw n) (s.inputClosed = true) s (s.setInput (s.input.taken s.nextInput))).symm

theorem State.tryIo_withPcw (w : IoWait) : (s.withPcw n).tryIo w = (s.tryIo w).withPcw n := by
  cases w with
  | input c =>
    have hdone : (s.withPcw n).completeInput c = (s.completeInput c).withPcw n := by
      rw [State.completeInput, State.consumeInput_withPcw]; rfl
    rw [State.tryIo, hdone]
    exact (apply_ite (fun t : State => t.withPcw n) (s.inputReady = true) (s.completeInput c)
      (s.setWait (some (.input c)))).symm
  | output b =>
    exact (apply_ite (fun t : State => t.withPcw n) (s.outReady = true) (s.completeOutput b)
      (s.setWait (some (.output b)))).symm

/-- An instruction runs alike under every width that holds 32 bits: it reads no width, and what LOADP writes to `pc` is a
register's value. -/
theorem exec_withPcw (i : Instr) (t : State) (hs : 32 ≤ s.cfg.pcw) (hn : 32 ≤ n) (h : exec i s = .next t) :
    exec i (s.withPcw n) = .next (t.withPcw n) := by
  cases i with
  | cmov a b c =>
    cases h
    exact congrArg Host.Outcome.next
      (apply_ite (fun t : State => t.withPcw n) (condHolds (s.reg c) = true) (s.setReg a (s.reg b)) s).symm
  | sload a b c =>
    cases h
    exact congrArg Host.Outcome.next
      (s.conclude_withPcw n (Functor.map_map (s.setReg a) (fun t => t.withPcw n) (s.load (s.address b c))).symm)
  | sstore a b c =>
    cases h
    refine congrArg Host.Outcome.next (s.conclude_withPcw n ?_)
    rw [State.store, State.store, State.memWrite, State.memWrite, ← checked_map]
    rfl
  | add a b c => cases h; rfl
  | mul a b c => cases h; rfl
  | div a b c =>
    cases h
    refine congrArg Host.Outcome.next (s.conclude_withPcw n ?_)
    rw [← checked_map]
    rfl
  | nand a b c => cases h; rfl
  | halt => cases h; rfl
  | map b c =>
    cases h
    refine congrArg Host.Outcome.next (s.conclude_withPcw n ?_)
    rw [State.reg_withPcw, State.allocate_withPcw]
    cases s.allocate (s.reg c).toNat <;> rfl
  | unmap c =>
    cases h
    refine congrArg Host.Outcome.next (s.conclude_withPcw n ?_)
    rw [← checked_map, ← checked_map]
    rfl
  | output c =>
    cases h
    refine congrArg Host.Outcome.next (s.conclude_withPcw n ?_)
    rw [← checked_map, State.tryIo_withPcw]
    rfl
  | input c => cases h; exact congrArg Host.Outcome.next (s.tryIo_withPcw n _)
  | loadp b c =>
    cases h
    refine congrArg Host.Outcome.next (s.conclude_withPcw n ?_)
    have hpc : ∀ t : State, t.cfg = s.cfg → (t.withPcw n).setPc (s.reg c).toNat = (t.setPc (s.reg c).toNat).withPcw n :=
      fun t ht => t.setPc_withPcw n _ (ht ▸ hs) hn (s.reg c).isLt
    by_cases hb : s.reg b = 0#32
    · simp only [State.reg_withPcw, hb, if_true, hpc s rfl]; rfl
    · simp only [State.reg_withPcw, hb, if_false]
      rw [← checked_map]
      rcases s.duplicateCheck_cases (s.reg b) with hd | hd
      · rw [s.duplicateInto0_of_check _ hd, (s.withPcw n).duplicateInto0_of_check _ hd]
        simp only [Except.map]
        rw [← hpc (s.setSeg 0#32 (s.seg (s.reg b))) rfl]
        rfl
      · simp only [State.duplicateInto0, State.duplicateCheck_withPcw, hd]
        rfl
  | loadv a imm => cases h; rfl
  | illegal14 => cases h; rfl
  | illegal15 => cases h; rfl

/-- A state that meets the invariant steps alike under every width that holds 32 bits. -/
theorem step_withPcw (t : State) (hi : s.Inv) (hn : 32 ≤ n) (h : step s = .next t) :
    step (s.withPcw n) = .next (t.withPcw n) := by
  have hs := ((Config.wf_iff _).1 hi.cfg_wf).1
  by_cases hr : s.status = .running
  · rcases hw : s.wait with _ | w
    · rcases Nat.lt_trichotomy s.pc (s.segLen 0#32) with hpc | hpc | hpc
      · have hread := s.memRead_pc_of_inv hi hpc
        have hlt : s.pc + 1 < 2 ^ 32 := s.advancePc_pc_of_inv hi hpc ▸ (s.inv_advancePc hi hpc).pc_lt
        have hadv : (s.withPcw n).advancePc = s.advancePc.withPcw n := s.setPc_withPcw n _ hs hn hlt
        rw [step_of_fetched s _ hr hw hread] at h
        rw [step_of_fetched (s.withPcw n) _ hr hw hread, hadv]
        exact exec_withPcw _ n _ t hs hn h
      · rw [step_at_end s hr hw hpc] at h
        cases h
        exact step_at_end (s.withPcw n) hr hw hpc
      · rw [step_past_end s hr hw hpc] at h
        cases h
        rw [step_past_end (s.withPcw n) hr hw hpc, State.pastEnd_withPcw]
    · rw [step_of_waiting s w hr hw] at h
      cases h
      rw [step_of_waiting (s.withPcw n) w hr hw, State.tryIo_withPcw]
  · rw [step_of_over s hr] at h
    cases h
    exact step_of_over (s.withPcw n) hr

end

/-- Settles O59: both states go through the same case of the step (`step_withPcw`). -/
theorem pcWidthIsUnobservable : Obligations.PcWidthIsUnobservable :=
  fun s t n hi hn h => step_withPcw s n t hi hn h

end Sys2Proof.Machine
end

section
/-! PROOFS. Memory (20_memory.md): which instructions change the segment table, and that a fetch reads the table as the
last instruction left it. -/

namespace Sys2Proof.Machine

section

variable {s t : State} {i : Instr}

/-- An instruction leaves the segments and the free-list alone, or is an SSTORE, a MAP, an UNMAP or a LOADP (R62). -/
theorem Effect.same_table_or_writer (e : Effect s i t) :
    (t.segs = s.segs ∧ t.freeList = s.freeList) ∨
      ((∃ a b c, i = .sstore a b c) ∨ (∃ b c, i = .map b c) ∨ (∃ c, i = .unmap c) ∨ ∃ b c, i = .loadp b c) := by
  cases e with
  | store a b c _ _ => exact .inr (.inl ⟨a, b, c, rfl⟩)
  | map b c _ => exact .inr (.inr (.inl ⟨b, c, rfl⟩))
  | unmap c _ _ => exact .inr (.inr (.inr (.inl ⟨c, rfl⟩)))
  | jump b c _ => exact .inr (.inr (.inr (.inr ⟨b, c, rfl⟩)))
  | load b c _ _ _ => exact .inr (.inr (.inr (.inr ⟨b, c, rfl⟩)))
  | input c => exact .inl ⟨s.tryIo_segs _, s.tryIo_freeList _⟩
  | output c b _ => exact .inl ⟨s.tryIo_segs _, s.tryIo_freeList _⟩
  | _ => exact .inl ⟨rfl, rfl⟩

end

/-- Settles O28: a step leaves the table alone, or runs an instruction that is one of the four
(`Effect.same_table_or_writer`). -/
theorem onlyFourInstructionsChangeTheTable : Obligations.OnlyFourInstructionsChangeTheTable := by
  intro s t h hchanged
  rcases step_same_table_or_effect h with ⟨hsegs, hfl, _⟩ | ⟨w, hm, e⟩
  · exact (hchanged.elim (· hsegs) (· hfl)).elim
  · rcases e.same_table_or_writer with ⟨hsegs, hfl⟩ | hwriter
    · exact (hchanged.elim (· hsegs) (· hfl)).elim
    · exact ⟨w, hm, hwriter⟩

section

variable (s : State)

/-- Under the invariant the fetch increments `pc` without wrapping (R31, R34). -/
theorem step_of_fetched_inv (w : Word) (hi : s.Inv) (hr : s.status = .running) (hw : s.wait = none)
    (h : s.memRead 0#32 s.pc = .ok w) : step s = exec (decode w) { s with pc := s.pc + 1 } := by
  obtain ⟨hstep, _, hpc⟩ := stepRunsTheFetchedInstruction.1 s w hr hw h
  rw [hstep, (hpc hi).1]

/-- After segment 0 is replaced, its addresses read as the words of the new segment (R73). -/
theorem State.memRead_setSeg_zero (g : Segment) (off : Nat) (hi : s.Inv) (ho : off < g.len) :
    (s.setSeg 0#32 g).memRead 0#32 off = .ok (g.word off) := by
  have hseg := s.seg_setSeg_self 0#32 g hi.tlen_pos
  rw [State.memRead_eq_ok_iff, State.mapped_setSeg, State.segLen, hseg]
  exact ⟨s.mapped_zero_of_inv hi, ho, rfl⟩

end

/-- Settles O31: the state an instruction leaves meets the invariant (`Effect.inv`), and what it reads at `(0, pc)` is the
word stored (`State.reads_after_store`), or the word of the segment loaded (`State.memRead_setSeg_zero`). -/
theorem fetchSeesStoresAndLoadsAtOnce : Obligations.FetchSeesStoresAndLoadsAtOnce := by
  constructor
  · intro s a b c hi hr hw ha hb hpc
    have hm := s.mapped_zero_of_inv hi
    have hexec := execSstore_ok s a b c (by rw [ha]; exact hm) (by rw [ha, hb]; exact hpc)
    have hinv := (exec_effect s _ _ hexec).inv hi hr hw
    rw [ha, hb] at hexec hinv
    obtain ⟨hread, _, _⟩ := s.reads_after_store 0#32 s.pc (s.reg c) hi.mem_wf hm hpc
    exact ⟨_, hexec, step_of_fetched_inv _ _ hinv hr hw hread⟩
  · intro s t b c hi hr hw hb hexec ht hc
    have e := exec_effect s _ t hexec
    have hinv := e.inv hi hr hw
    cases e with
    | reg _ a v hd _ _ => cases hd
    | fault _ k _ => cases ht
    | jump _ _ h0 => exact absurd h0 hb
    | load _ _ _ _ _ =>
      have hpc : ((s.setSeg 0#32 (s.seg (s.reg b))).setPc (s.reg c).toNat).pc = (s.reg c).toNat :=
        s.pc_fits _ hi.cfg_wf (s.reg c).isLt
      have hread := s.memRead_setSeg_zero (s.seg (s.reg b)) (s.reg c).toNat hi hc
      rw [step_of_fetched_inv _ _ hinv hr hw (by rw [hpc]; exact hread), hpc]

end Sys2Proof.Machine
end

section
/-! PROOFS. Encoding (30_encoding.md): the decoder's equation for each opcode, the round trip of both formats, the
bits no instruction uses, and the Bit Codec bit by bit. -/

namespace Sys2Proof

/-! ### The decoder, opcode by opcode (R104, R106) -/

section

variable {w : Word}

theorem decode_cmov (h : (opField w).toNat = 0) : decode w = .cmov (aField w) (bField w) (cField w) := by
  simp only [decode, h]

theorem decode_sload (h : (opField w).toNat = 1) : decode w = .sload (aField w) (bField w) (cField w) := by
  simp only [decode, h]

theorem decode_sstore (h : (opField w).toNat = 2) : decode w = .sstore (aField w) (bField w) (cField w) := by
  simp only [decode, h]

theorem decode_add (h : (opField w).toNat = 3) : decode w = .add (aField w) (bField w) (cField w) := by
  simp only [decode, h]

theorem decode_mul (h : (opField w).toNat = 4) : decode w = .mul (aField w) (bField w) (cField w) := by
  simp only [decode, h]

theorem decode_div (h : (opField w).toNat = 5) : decode w = .div (aField w) (bField w) (cField w) := by
  simp only [decode, h]

theorem decode_nand (h : (opField w).toNat = 6) : decode w = .nand (aField w) (bField w) (cField w) := by
  simp only [decode, h]

theorem decode_halt (h : (opField w).toNat = 7) : decode w = .halt := by simp only [decode, h]

theorem decode_map (h : (opField w).toNat = 8) : decode w = .map (bField w) (cField w) := by simp only [decode, h]

theorem decode_unmap (h : (opField w).toNat = 9) : decode w = .unmap (cField w) := by simp only [decode, h]

theorem decode_output (h : (opField w).toNat = 10) : decode w = .output (cField w) := by simp only [decode, h]

theorem decode_input (h : (opField w).toNat = 11) : decode w = .input (cField w) := by simp only [decode, h]

theorem decode_loadp (h : (opField w).toNat = 12) : decode w = .loadp (bField w) (cField w) := by simp only [decode, h]

theorem decode_loadv (h : (opField w).toNat = 13) : decode w = .loadv (aImmField w) (immField w).toNat := by
  simp only [decode, h]

theorem decode_illegal14 (h : (opField w).toNat = 14) : decode w = .illegal14 := by simp only [decode, h]

theorem decode_illegal15 (h : (opField w).toNat = 15) : decode w = .illegal15 := by simp only [decode, h]

end

/-- The decoder answers an instruction of the word's own opcode. -/
theorem opcodeOf_decode (w : Word) : opcodeOf (decode w) = opField w := by
  have hlt : (opField w).toNat < 16 := (opField w).isLt
  apply BitVec.eq_of_toNat_eq
  interval_cases h : (opField w).toNat <;> simp [decode, h, opcodeOf]

/-- Settles O3: the equation of each opcode, its fields read in arithmetic (`toNat_opField`, `aField_eq`). -/
theorem decodeIsTheOpcodeMap : Obligations.DecodeIsTheOpcodeMap := by
  intro w
  simp only [← toNat_opField, ← aField_eq, ← bField_eq, ← cField_eq, ← aImmField_eq, ← toNat_immField]
  exact ⟨decode_cmov, decode_sload, decode_sstore, decode_add, decode_mul, decode_div, decode_nand, decode_halt,
    decode_map, decode_unmap, decode_output, decode_input, decode_loadp, decode_loadv, decode_illegal14,
    decode_illegal15, (opField w).isLt⟩

/-- Settles O2: the decoder run on each word. -/
theorem specWordsDecode : Obligations.SpecWordsDecode := by
  unfold Obligations.SpecWordsDecode
  decide

/-! ### The round trip (R132) -/

/-- The fields read back from a canonical word are those it was made of, in either format (`encodeReg3_fields`,
`encodeImm_fields`); an immediate that fits loses nothing in its 25 bits. -/
theorem decode_encode (i : Instr) (hwf : i.wf = true) : decode (encode i) = i := by
  cases i with
  | loadv a imm =>
    obtain ⟨hop, ha, himm⟩ := encodeImm_fields 13 a imm
    have hfits : imm < 2 ^ 25 := of_decide_eq_true hwf
    have hdec : decode (encode (.loadv a imm)) = _ := decode_loadv (congrArg BitVec.toNat hop)
    rw [hdec]
    simp only [encode, opcodeOf, ha, himm, BitVec.toNat_ofNat, Nat.mod_eq_of_lt hfits]
  | _ => simp [encode, opcodeOf, decode, encodeReg3_fields]

/-- Settles O1: the round trip on words (`decode_encode`) carries over to the four bytes of a word
(`decodeBytes_bytesOfWord`), and the assembler tests `Instr.wf`. -/
theorem decodeOfEncodeIsIdentity : Obligations.DecodeOfEncodeIsIdentity := by
  refine ⟨fun i rest hwf => ⟨decode_encode i hwf, ?_, if_pos hwf⟩, fun a imm hbig => if_neg ?_⟩
  · rw [encodeBytes, decodeBytes_bytesOfWord, decode_encode i hwf]
  · simpa [Instr.wf, immFits] using hbig

/-- The three fields of the immediate format fill the word: put together again they are the word (R102). -/
theorem encodeImm_of_fields (w : Word) : encodeImm (opField w) (aImmField w) (immField w).toNat = w := by
  have hreg : BitVec.ofFin (w := 3) (aImmField w) = w.extractLsb' 25 3 := rfl
  rw [encodeImm, hreg, BitVec.ofNat_toNat, BitVec.setWidth_eq]
  apply BitVec.eq_of_getLsbD_eq
  intro i hi
  interval_cases i <;> simp [placed, opField, immField]

/-- Settles O5: a word of opcode 13 is made of its three fields (`encodeImm_of_fields`); an instruction the decoder
answers is well formed (`decode_wf`) and of the word's opcode (`opcodeOf_decode`). -/
theorem immediateFormatFillsTheWord : Obligations.ImmediateFormatFillsTheWord := by
  refine ⟨fun w h => ?_, fun w a imm h => ⟨?_, ?_⟩⟩
  · have hdec : decode w = .loadv (aImmField w) (immField w).toNat := decode_loadv (congrArg BitVec.toNat h)
    have henc : encode (.loadv (aImmField w) (immField w).toNat) =
        encodeImm (opField w) (aImmField w) (immField w).toNat := by rw [h]; rfl
    rw [hdec, henc, encodeImm_of_fields, aImmField_eq, toNat_immField]
    exact ⟨rfl, rfl⟩
  · rw [← opcodeOf_decode, h]; rfl
  · have hwf := decode_wf w
    rw [h] at hwf
    exact of_decide_eq_true hwf

/-! ### Bits no instruction uses (R109) -/

/-- Words that agree under a mask agree in every field the mask covers. -/
theorem extractLsb'_eq_of_and_eq {w w' : Word} (mask : Word) (start len : Nat) (h : w &&& mask = w' &&& mask)
    (hmask : mask.extractLsb' start len = BitVec.allOnes len) : w.extractLsb' start len = w'.extractLsb' start len := by
  have hfield := congrArg (BitVec.extractLsb' start len) h
  simpa only [BitVec.extractLsb'_and, hmask, BitVec.and_allOnes] using hfield

/-- Outside the immediate format the decoder reads the opcode and the three register fields only. -/
theorem decode_eq_of_fields_eq {w w' : Word} (h13 : opField w ≠ 13#4) (hop : opField w = opField w')
    (ha : aField w = aField w') (hb : bField w = bField w') (hc : cField w = cField w') : decode w = decode w' := by
  have hne : (opField w').toNat ≠ 13 := fun h => h13 (hop.trans (BitVec.eq_of_toNat_eq h))
  simp only [decode, hop, ha, hb, hc]
  split
  case h_14 h => exact absurd h hne
  all_goals rfl

/-- The opcode alone selects the instruction. -/
theorem mnemonic_decode_eq_of_opField_eq {w w' : Word} (hop : opField w = opField w') :
    (decode w).mnemonic = (decode w').mnemonic := by
  simp only [decode, hop]
  split <;> rfl

/-- The canonical word of every instruction but LOADV is in the three-register format (R103). -/
theorem encode_eq_encodeReg3 (i : Instr) (h : ∀ a imm, i ≠ .loadv a imm) :
    ∃ a b c, encode i = encodeReg3 (opcodeOf i) a b c := by
  cases i with
  | loadv a imm => exact absurd rfl (h a imm)
  | _ => exact ⟨_, _, _, rfl⟩

/-- The canonical three-register word has zeros in bits 27:9: none of its four fields reaches them. -/
theorem encodeReg3_and_unused (op : BitVec 4) (a b c : Reg) : encodeReg3 op a b c &&& 0x0FFFFE00#32 = 0#32 := by
  have hop : ∀ op : BitVec 4, placed op 28 &&& 0x0FFFFE00#32 = 0#32 := by decide
  have hreg : ∀ r : Reg, placed (BitVec.ofFin (w := 3) r) 6 &&& 0x0FFFFE00#32 = 0#32 ∧
      placed (BitVec.ofFin (w := 3) r) 3 &&& 0x0FFFFE00#32 = 0#32 ∧
      placed (BitVec.ofFin (w := 3) r) 0 &&& 0x0FFFFE00#32 = 0#32 := by decide
  simp only [encodeReg3, BitVec.and_or_distrib_right, hop, hreg, BitVec.or_self]

/-- Settles O4: words that agree under a mask agree in the fields it covers (`extractLsb'_eq_of_and_eq`), and those are
the fields the decoder reads for the opcode. -/
theorem unusedBitsAreIgnored : Obligations.UnusedBitsAreIgnored := by
  refine ⟨fun w w' h13 h => ?_, fun w h => decode_halt (congrArg BitVec.toNat h), fun w w' hop h => ?_,
    fun w w' hop h => ?_, fun w w' => mnemonic_decode_eq_of_opField_eq, fun i hi => ?_⟩
  · have hfield := fun start len => extractLsb'_eq_of_and_eq _ start len h
    exact decode_eq_of_fields_eq h13 (hfield 28 4 rfl) (congrArg BitVec.toFin (hfield 6 3 rfl))
      (congrArg BitVec.toFin (hfield 3 3 rfl)) (congrArg BitVec.toFin (hfield 0 3 rfl))
  · have hfield := fun start len => extractLsb'_eq_of_and_eq _ start len h
    have ho : opField w = opField w' := hfield 28 4 rfl
    have hb : bField w = bField w' := congrArg BitVec.toFin (hfield 3 3 rfl)
    have hc : cField w = cField w' := congrArg BitVec.toFin (hfield 0 3 rfl)
    rcases hop with h8 | h12
    · rw [decode_map (congrArg BitVec.toNat h8), decode_map (congrArg BitVec.toNat (ho ▸ h8)), hb, hc]
    · rw [decode_loadp (congrArg BitVec.toNat h12), decode_loadp (congrArg BitVec.toNat (ho ▸ h12)), hb, hc]
  · have hfield := fun start len => extractLsb'_eq_of_and_eq _ start len h
    have ho : opField w = opField w' := hfield 28 4 rfl
    have hc : cField w = cField w' := congrArg BitVec.toFin (hfield 0 3 rfl)
    rcases hop with h9 | h10 | h11
    · rw [decode_unmap (congrArg BitVec.toNat h9), decode_unmap (congrArg BitVec.toNat (ho ▸ h9)), hc]
    · rw [decode_output (congrArg BitVec.toNat h10), decode_output (congrArg BitVec.toNat (ho ▸ h10)), hc]
    · rw [decode_input (congrArg BitVec.toNat h11), decode_input (congrArg BitVec.toNat (ho ▸ h11)), hc]
  · obtain ⟨a, b, c, henc⟩ := encode_eq_encodeReg3 i hi
    rw [henc, encodeReg3_and_unused]

/-! ### The Bit Codec (R120 to R124) -/

/-- `get` is the field, moved down to bit 0. -/
theorem codecGet_eq_extractLsb' (word : BitVec 64) (f : CodecField) :
    codecGet word f = (word.extractLsb' f.offset f.width).setWidth 64 := by
  apply BitVec.eq_of_getLsbD_eq
  intro i hi
  rw [codecGet, BitVec.getLsbD_ushiftRight, BitVec.getLsbD_and, BitVec.getLsbD_setWidth, BitVec.getLsbD_extractLsb']
  by_cases hin : f.offset + i < 64
  · simp [f.getLsbD_mask _ hin, hi, Bool.and_comm]
  · simp [BitVec.getLsbD_of_ge word _ (Nat.le_of_not_lt hin)]

theorem getLsbD_codecGet (word : BitVec 64) (f : CodecField) (i : Nat) (hi : i < 64) :
    (codecGet word f).getLsbD i = (decide (i < f.width) && word.getLsbD (f.offset + i)) := by
  rw [codecGet_eq_extractLsb', BitVec.getLsbD_setWidth, BitVec.getLsbD_extractLsb', decide_eq_true hi, Bool.true_and]

/-- On a zero-extended instruction word, `get` is the field of the word itself. -/
theorem toNat_codecGet_setWidth (w : Word) (f : CodecField) :
    (codecGet (w.setWidth 64) f).toNat = (w.extractLsb' f.offset f.width).toNat := by
  have hw : w.toNat % 2 ^ 64 = w.toNat := Nat.mod_eq_of_lt (by omega)
  have hlt : w.toNat >>> f.offset < 2 ^ 64 := lt_of_le_of_lt (Nat.shiftRight_le _ _) (by omega)
  rw [codecGet_eq_extractLsb', BitVec.toNat_setWidth, BitVec.extractLsb'_toNat, BitVec.extractLsb'_toNat,
    BitVec.toNat_setWidth, hw, Nat.mod_eq_of_lt (lt_of_le_of_lt (Nat.mod_le _ _) hlt)]

theorem codecSet_eq_overflow_iff (word v : BitVec 64) (f : CodecField) :
    codecSet word f v = .error .overflow ↔ (2 ^ f.width ≤ v.toNat ∧ f.width < 64) := by
  rw [codecSet]
  split
  next h => exact ⟨fun _ => h.symm, fun _ => rfl⟩
  next h => exact ⟨nofun, fun hover => absurd hover.symm h⟩

/-- `set` succeeds exactly on the values that fit, since every value of 64 bits fits a field of width 64 (R122). -/
theorem codecSet_eq_ok_iff (word word' v : BitVec 64) (f : CodecField) :
    codecSet word f v = .ok word' ↔ v.toNat < 2 ^ f.width ∧ (word &&& ~~~f.mask) ||| (v <<< f.offset) = word' := by
  rw [codecSet]
  split
  next h => exact ⟨nofun, fun hok => absurd h.2 (Nat.not_le_of_lt hok.1)⟩
  next h =>
    have hfits : v.toNat < 2 ^ f.width := by
      rcases Nat.lt_or_eq_of_le (le_of_add_le_right f.fits) with hw | hw
      · exact Nat.lt_of_not_le fun hge => h ⟨hw, hge⟩
      · exact lt_of_lt_of_eq v.isLt (by rw [hw])
    rw [Except.ok.injEq, and_iff_right hfits]

/-- A value that fits a field has no bit at or above the field's width. -/
theorem getLsbD_eq_false_of_fits {v : BitVec 64} {f : CodecField} (hfits : v.toNat < 2 ^ f.width) (j : Nat)
    (hj : f.width ≤ j) : v.getLsbD j = false :=
  Nat.testBit_lt_two_pow (lt_of_lt_of_le hfits (Nat.pow_le_pow_right (by decide) hj))

/-- The bits of a word after `set`: the value's in the field, the word's own everywhere else. -/
theorem getLsbD_of_codecSet {word word' v : BitVec 64} {f : CodecField} (h : codecSet word f v = .ok word') (i : Nat)
    (hi : i < 64) :
    word'.getLsbD i =
      if f.offset ≤ i ∧ i < f.offset + f.width then v.getLsbD (i - f.offset) else word.getLsbD i := by
  obtain ⟨hfits, rfl⟩ := (codecSet_eq_ok_iff word word' v f).1 h
  simp only [BitVec.getLsbD_or, BitVec.getLsbD_and, BitVec.getLsbD_not, BitVec.getLsbD_shiftLeft, hi,
    f.getLsbD_mask i hi]
  rcases Nat.lt_or_ge i f.offset with hlow | hge
  · simp [hlow, Nat.not_le_of_lt hlow]
  · by_cases hin : i < f.offset + f.width
    · simp [hge, hin, Nat.not_lt_of_le hge]
    · simp [hge, hin, getLsbD_eq_false_of_fits hfits (i - f.offset) (by omega)]

/-- Settles O6: the bits of `get` (`getLsbD_codecGet`), those of `set` (`getLsbD_of_codecSet`), and the decoder's fields
read through the codec (`toNat_codecGet_setWidth`). -/
theorem codecGetAndSetContract : Obligations.CodecGetAndSetContract :=
  ⟨getLsbD_codecGet, fun _ _ _ _ h => getLsbD_of_codecSet h, fun w =>
    have hfield := fun f => (toNat_codecGet_setWidth w f).symm
    ⟨hfield opCodec, hfield aCodec, hfield bCodec, hfield cCodec, hfield aImmCodec, hfield immCodec⟩⟩

/-- Settles O7: `set` succeeds (`codecSet_eq_ok_iff`), and `get` reads the value's bits back; above the width both have
none. -/
theorem codecRoundTrip : Obligations.CodecRoundTrip := by
  intro word v f hfits
  have hset := (codecSet_eq_ok_iff word _ v f).2 ⟨hfits, rfl⟩
  refine ⟨_, hset, BitVec.eq_of_getLsbD_eq fun i hi => ?_⟩
  rw [getLsbD_codecGet _ f i hi]
  by_cases hin : i < f.width
  · have hbit := getLsbD_of_codecSet hset (f.offset + i) (by have := f.fits; omega)
    rw [hbit, if_pos ⟨Nat.le_add_right _ _, by omega⟩]
    simp [hin]
  · simp [hin, getLsbD_eq_false_of_fits hfits i (Nat.le_of_not_lt hin)]

/-- Inserting a byte into a byte field succeeds (R122). -/
theorem codecSet_byte (word : BitVec 64) (k : Fin 4) (b : Byte) :
    ∃ word', codecSet word (byteCodec k) (b.setWidth 64) = .ok word' := by
  refine ⟨_, (codecSet_eq_ok_iff word _ _ _).2 ⟨?_, rfl⟩⟩
  rw [BitVec.toNat_setWidth]
  exact lt_of_le_of_lt (Nat.mod_le _ _) b.isLt

/-- The four insertions of the loader succeed and leave the big-endian word of the four bytes (R263, R77). -/
theorem codecAssemble_eq_wordOfBytes (b0 b1 b2 b3 : Byte) :
    codecAssemble b0 b1 b2 b3 = .ok ((wordOfBytes b0 b1 b2 b3).setWidth 64) := by
  obtain ⟨w3, h3⟩ := codecSet_byte 0#64 3 b3
  obtain ⟨w2, h2⟩ := codecSet_byte w3 2 b2
  obtain ⟨w1, h1⟩ := codecSet_byte w2 1 b1
  obtain ⟨w0, h0⟩ := codecSet_byte w1 0 b0
  have hbits : w0 = (wordOfBytes b0 b1 b2 b3).setWidth 64 := by
    apply BitVec.eq_of_getLsbD_eq
    intro i hi
    rw [getLsbD_of_codecSet h0 i hi, getLsbD_of_codecSet h1 i hi, getLsbD_of_codecSet h2 i hi,
      getLsbD_of_codecSet h3 i hi]
    simp only [wordOfBytes, BitVec.getLsbD_append, BitVec.getLsbD_setWidth, byteCodec, BitVec.getLsbD_zero]
    have hbyte : i < 8 ∨ (8 ≤ i ∧ i < 16) ∨ (16 ≤ i ∧ i < 24) ∨ 24 ≤ i := by omega
    rcases hbyte with h | h | h | h <;> grind
  rw [codecAssemble, h3]
  simp only [Except.bind, h2, h1, h0, hbits]

/-- Settles O8: `set` tests the two conditions of R122 (`codecSet_eq_overflow_iff`); the loader's word is
`codecAssemble_eq_wordOfBytes`. -/
theorem codecOverflowIsUnreachableInTheLoader : Obligations.CodecOverflowIsUnreachableInTheLoader :=
  ⟨codecSet_eq_overflow_iff, codecAssemble_eq_wordOfBytes⟩

end Sys2Proof
end

section
/-! PROOFS. Conditional move (40_cmov.md): its two cases, by the value of the condition register. -/

namespace Sys2Proof.Machine

section

variable (s : State) (a b c : Reg)

/-- A non-zero condition register: the move takes place (R140). -/
theorem execCmov_of_ne_zero (h : s.reg c ≠ 0#32) : exec (.cmov a b c) s = .next (s.setReg a (s.reg b)) :=
  congrArg Host.Outcome.next (if_pos (decide_eq_true h))

/-- A zero condition register: nothing changes, so `pc` keeps its incremented value (R140). -/
theorem execCmov_of_eq_zero (h : s.reg c = 0#32) : exec (.cmov a b c) s = .next s :=
  congrArg Host.Outcome.next (if_neg (by simp [condHolds, h]))

end

/-- Settles O35: by cases on `x[c]`, with one register written (`State.onlyRegister_setReg`) or none
(`State.onlyRegister_refl`). -/
theorem cmovMovesWhenConditionIsNonzero : Obligations.CmovMovesWhenConditionIsNonzero := by
  intro a b c s
  by_cases h : s.reg c = 0#32
  · exact ⟨s, execCmov_of_eq_zero s a b c h, fun hne => absurd h hne, fun _ => rfl, s.onlyRegister_refl a⟩
  · exact ⟨_, execCmov_of_ne_zero s a b c h, fun _ => s.reg_setReg_self a (s.reg b), fun h0 => absurd h0 h,
      s.onlyRegister_setReg a (s.reg b)⟩

end Sys2Proof.Machine
end

section
/-! PROOFS. Segmented load and store (41_segment_access.md): SLOAD's effect, and that a failing access check ends both
instructions in its fault. -/

namespace Sys2Proof.Machine

section

variable (s : State) (a b c : Reg)

/-- SLOAD within bounds writes the word at `(x[b], x[c])` (R145). -/
theorem execSload_ok (hm : s.mapped (s.reg b) = true) (ho : (s.reg c).toNat < s.segLen (s.reg b)) :
    exec (.sload a b c) s = .next (s.setReg a ((s.seg (s.reg b)).word (s.reg c).toNat)) := by
  have hload : s.load (s.address b c) = .ok ((s.seg (s.reg b)).word (s.reg c).toNat) := s.memRead_ok _ _ hm ho
  simp only [exec, execSload, hload, Except.map, State.conclude_ok]

/-- The fault of SLOAD's access check, before any register is written (R146). -/
theorem execSload_fault (k : Cause) (h : s.accessCheck (s.reg b) (s.reg c).toNat = some k) :
    exec (.sload a b c) s = .next (s.raiseFault k) := by
  simp only [exec, execSload, State.load, State.address, State.memRead, h, Except.map, State.conclude_error]

/-- The fault of SSTORE's access check, before memory is written (R151). -/
theorem execSstore_fault (k : Cause) (h : s.accessCheck (s.reg a) (s.reg b).toNat = some k) :
    exec (.sstore a b c) s = .next (s.raiseFault k) := by
  simp only [exec, execSstore, State.store, State.address, State.memWrite, h, checked_some, State.conclude_error]

end

/-- Settles O42: SLOAD writes one register (`execSload_ok`), with the word that reading the address answers
(`State.memRead_ok`). -/
theorem sloadReadsTheWord : Obligations.SloadReadsTheWord := by
  intro a b c s hm ho
  have hword := s.reg_setReg_self a ((s.seg (s.reg b)).word (s.reg c).toNat)
  refine ⟨_, execSload_ok s a b c hm ho, hword, ?_, s.onlyRegister_setReg a _⟩
  rw [hword]
  exact s.memRead_ok _ _ hm ho

/-- Settles O43: the three answers of the access check, each passed on by `execSload_fault`. -/
theorem sloadFaults : Obligations.SloadFaults := fun a b c s =>
  ⟨fun h => execSload_fault s a b c _ (s.accessCheck_of_out_of_range _ _ h),
    fun h hf => execSload_fault s a b c _ (s.accessCheck_of_unmapped _ _ h hf),
    fun hm ho => execSload_fault s a b c _ (s.accessCheck_of_offset _ _ hm ho)⟩

/-- Settles O44: what reads as the word stored and what reads as before is `State.reads_after_store`; an address is
another one exactly when its id or its offset, as a number, is. -/
theorem sstoreWritesOneWord : Obligations.SstoreWritesOneWord := by
  intro a b c s hwf hm ho
  obtain ⟨hself, hother, hlen⟩ := s.reads_after_store _ _ (s.reg c) hwf hm ho
  refine ⟨_, execSstore_ok s a b c hm ho, hself, fun p hne => hother _ _ ?_, hlen, s.tlen_setSeg _ _, rfl⟩
  rintro ⟨hid, hoff⟩
  obtain ⟨id, off⟩ := p
  exact hne (congrArg₂ Address.mk hid (BitVec.eq_of_toNat_eq hoff))

/-- Settles O45: the three answers of the access check, each passed on by `execSstore_fault`. -/
theorem sstoreFaults : Obligations.SstoreFaults := fun a b c s =>
  ⟨fun h => execSstore_fault s a b c _ (s.accessCheck_of_out_of_range _ _ h),
    fun h hf => execSstore_fault s a b c _ (s.accessCheck_of_unmapped _ _ h hf),
    fun hm ho => execSstore_fault s a b c _ (s.accessCheck_of_offset _ _ hm ho)⟩

end Sys2Proof.Machine
end

section
/-! PROOFS. Arithmetic and logic (42_arithmetic_logic.md): the value of each operation on two words, and what ADD,
MUL, DIV and NAND do with it. -/

namespace Sys2Proof.Machine

/-! ### The operations on words -/

section

variable (p q : Word)

/-- The sum narrowed to 32 bits (R155). -/
theorem toNat_addWord : (addWord p q).toNat = (p.toNat + q.toNat) % 2 ^ 32 := BitVec.toNat_ofNat _ _

/-- The product narrowed to 32 bits (R158). -/
theorem toNat_mulWord : (mulWord p q).toNat = (p.toNat * q.toNat) % 2 ^ 32 := BitVec.toNat_ofNat _ _

/-- A quotient is no larger than the dividend, so narrowing it loses nothing (R161). -/
theorem toNat_divWord : (divWord p q).toNat = p.toNat / q.toNat :=
  (BitVec.toNat_ofNat _ _).trans (Nat.mod_eq_of_lt ((Nat.div_le_self _ _).trans_lt p.isLt))

/-- For a non-zero divisor the quotient is the `q` with `q * x[c] <= x[b] < (q + 1) * x[c]` (R161). -/
theorem divWord_bounds (hq : q ≠ 0#32) :
    (divWord p q).toNat * q.toNat ≤ p.toNat ∧ p.toNat < ((divWord p q).toNat + 1) * q.toNat := by
  have hpos : 0 < q.toNat := Nat.pos_of_ne_zero fun h => hq (BitVec.eq_of_toNat_eq h)
  rw [toNat_divWord]
  exact ⟨Nat.div_mul_le_self _ _, (Nat.div_lt_iff_lt_mul hpos).mp (Nat.lt_succ_self _)⟩

/-- Bit by bit on the 32 bits of a word (R165). -/
theorem getLsbD_nandWord (i : Nat) (hi : i < 32) :
    (nandWord p q).getLsbD i = !(p.getLsbD i && q.getLsbD i) := by
  simp only [nandWord, BitVec.getLsbD_not, BitVec.getLsbD_and, hi, decide_true, Bool.true_and]

end

/-! ### The instructions -/

section

variable (s : State) (a b c : Reg)

theorem execAdd_eq_setReg : exec (.add a b c) s = .next (s.setReg a (addWord (s.reg b) (s.reg c))) := rfl

theorem execMul_eq_setReg : exec (.mul a b c) s = .next (s.setReg a (mulWord (s.reg b) (s.reg c))) := rfl

theorem execNand_eq_setReg : exec (.nand a b c) s = .next (s.setReg a (nandWord (s.reg b) (s.reg c))) := rfl

/-- A non-zero divisor passes DIV's check, and the quotient is written (R161). -/
theorem execDiv_of_ne_zero (h : s.reg c ≠ 0#32) :
    exec (.div a b c) s = .next (s.setReg a (divWord (s.reg b) (s.reg c))) := by
  simp only [exec, execDiv, divisorCheck, if_neg h, checked_none, State.conclude_ok, State.binary]

/-- A zero divisor is DIV's fault, before any register is written (R162). -/
theorem execDiv_of_eq_zero (h : s.reg c = 0#32) : exec (.div a b c) s = .next (s.raiseFault .divideByZero) := by
  simp only [exec, execDiv, divisorCheck, if_pos h, checked_some, State.conclude_error]

/-- An instruction that writes `v` to `x[a]` completes, with every property of `v` at the destination and nothing else
changed. -/
theorem completes_of_exec_eq_setReg {i : Instr} {v : Word} (P : Word → Prop) (h : exec i s = .next (s.setReg a v))
    (hv : P v) : ∃ t, exec i s = .next t ∧ P (t.reg a) ∧ s.OnlyRegister a t :=
  ⟨_, h, (s.reg_setReg_self a v).symm ▸ hv, s.onlyRegister_setReg a v⟩

end

/-- Settles O36: one register is written, with the sum (`toNat_addWord`). -/
theorem addIsModuloTwoTo32 : Obligations.AddIsModuloTwoTo32 := fun a b c s =>
  completes_of_exec_eq_setReg s a (fun v => v.toNat = ((s.reg b).toNat + (s.reg c).toNat) % 2 ^ 32)
    (execAdd_eq_setReg s a b c) (toNat_addWord _ _)

/-- Settles O37: one register is written, with the product (`toNat_mulWord`). -/
theorem mulIsModuloTwoTo32 : Obligations.MulIsModuloTwoTo32 := fun a b c s =>
  completes_of_exec_eq_setReg s a (fun v => v.toNat = ((s.reg b).toNat * (s.reg c).toNat) % 2 ^ 32)
    (execMul_eq_setReg s a b c) (toNat_mulWord _ _)

/-- Settles O38: by the divisor (`execDiv_of_ne_zero`, `execDiv_of_eq_zero`); the two bounds on `q` are those of the
quotient (`divWord_bounds`). -/
theorem divIsUnsignedFloor : Obligations.DivIsUnsignedFloor := by
  intro a b c s
  refine ⟨fun hc => ?_, execDiv_of_eq_zero s a b c⟩
  obtain ⟨t, ht, ⟨hle, hlt⟩, hframe⟩ := completes_of_exec_eq_setReg s a
    (fun v => v.toNat * (s.reg c).toNat ≤ (s.reg b).toNat ∧ (s.reg b).toNat < (v.toNat + 1) * (s.reg c).toNat)
    (execDiv_of_ne_zero s a b c hc) (divWord_bounds _ _ hc)
  exact ⟨t, ht, hle, hlt, hframe⟩

/-- Settles O39: one register is written, with the bits of `getLsbD_nandWord`. -/
theorem nandIsBitwise : Obligations.NandIsBitwise := fun a b c s =>
  completes_of_exec_eq_setReg s a
    (fun v => ∀ i, i < 32 → v.getLsbD i = !((s.reg b).getLsbD i && (s.reg c).getLsbD i))
    (execNand_eq_setReg s a b c) (getLsbD_nandWord _ _)

end Sys2Proof.Machine
end

section
/-! PROOFS. HALT (43_halt.md): what a machine that stopped normally shows, for whatever reason it stopped, and that HALT
stops it so. -/

namespace Sys2Proof.Machine

section

variable (s : State) (why : StopReason)

/-- The exit status of a normal stop is 0 (R39). -/
@[simp] theorem State.exitStatus_stopRun : (s.stopRun why).exitStatus = some 0 :=
  (State.exitStatus_eq_some_iff _ 0).2 (.inl ⟨s.stopRun_status why, rfl⟩)

/-- A normal stop is success (R270). -/
@[simp] theorem State.successful_stopRun : (s.stopRun why).successful = true :=
  decide_eq_true (s.stopRun_status why)

/-- A normal stop touches no segment and no table state. -/
theorem State.readsAs_stopRun : (s.stopRun why).ReadsAs s :=
  s.readsAs_of_same_table _ (s.stopRun_segs why) (s.stopRun_freeList why)

/-- After a normal stop nothing is fetched: the machine is no longer RUNNING (R36). -/
theorem step_stopRun : step (s.stopRun why) = .next (s.stopRun why) :=
  step_of_over _ (by rw [s.stopRun_status]; decide)

/-- HALT has no operand and no fault: it is the normal stop and nothing else (R170). -/
theorem execHalt_eq_stopRun : exec .halt s = .next (s.stopRun .haltInstruction) := rfl

end

/-- Settles O41: HALT is a normal stop (`execHalt_eq_stopRun`), which writes STATUS and STOP_REASON only; the exit status,
the success, the memory and the next step are those of any normal stop. -/
theorem haltStopsTheRun : Obligations.HaltStopsTheRun := fun s =>
  ⟨s.stopRun .haltInstruction, execHalt_eq_stopRun s, rfl, s.exitStatus_stopRun _, s.successful_stopRun _,
    s.readsAs_stopRun _, step_stopRun s _⟩

end Sys2Proof.Machine
end

section
/-! PROOFS. Segment allocation (44_map_unmap.md): what an allocation and a release leave readable, and how MAP and UNMAP
end when one of their checks fails. -/

namespace Sys2Proof.Machine

section

variable (s : State)

/-! ### Allocation -/

/-- An allocation changes no address of another segment (R68). -/
theorem State.readsAsOutside_allocated (n : Nat) (hi : s.Inv) (hroom : s.freeList = [] → s.tlen < s.cfg.nsegMax) :
    (s.allocated n).2.ReadsAsOutside s (s.allocated n).1 := by
  obtain ⟨_, _, _, _, _, _, hother⟩ := s.allocated_spec n hi hroom
  intro p hp
  obtain ⟨hcheck, hseg⟩ := hother p.id hp
  exact s.memRead_of_same _ _ _ hcheck hseg

/-- Beyond capacity the check raises its one fault (R75). -/
theorem State.allocateCheck_of_beyond (n : Nat)
    (h : s.freeList = [] ∧ s.tlen = s.cfg.nsegMax ∨ ∃ m, s.cfg.memWordsMax = some m ∧ m < s.mappedWords + n) :
    s.allocateCheck n = some .resourceExhausted := by
  refine (s.allocateCheck_cases n).resolve_left fun hnone => ?_
  obtain ⟨hroom, hmem⟩ := (s.allocateCheck_none_iff n).1 hnone
  rcases h with ⟨hfl, hfull⟩ | ⟨m, hm, hover⟩
  · exact absurd (hroom hfl) hfull.not_lt
  · exact absurd (hmem m hm) hover.not_ge

/-- The fault of MAP's capacity check, before anything is allocated (R177). -/
theorem execMap_fault (b c : Reg) (k : Cause) (h : s.allocateCheck (s.reg c).toNat = some k) :
    exec (.map b c) s = .next (s.raiseFault k) := by
  simp only [exec, execMap, State.allocate, h, Except.map, State.conclude_error]

/-! ### Release -/

/-- A released id is not mapped (R70). -/
theorem State.mapped_release_self (id : Word) : (s.release id).mapped id = false := by
  rw [Bool.eq_false_iff, Ne, State.mapped_iff, State.freeList_release]
  exact fun h => h.2 List.mem_cons_self

/-- Reading an unmapped segment faults at every offset (R63, R66). -/
theorem State.memRead_of_unmapped (id : Word) (off : Nat) (h : id.toNat < s.tlen) (hf : id ∈ s.freeList) :
    s.memRead id off = .error .segmentUnmapped := by
  simp only [State.memRead, s.accessCheck_of_unmapped id off h hf]

/-- A release changes no address of another segment (R70). -/
theorem State.readsAsOutside_release (id : Word) : (s.release id).ReadsAsOutside s id :=
  fun p hp => s.memRead_of_same _ _ _ (s.segCheck_release_ne id p.id hp) (s.seg_release_ne id p.id hp)

/-- The fault of UNMAP's segment check, before anything is released (R183). -/
theorem execUnmap_fault (c : Reg) (k : Cause) (h : s.segCheck (s.reg c) = some k) :
    exec (.unmap c) s = .next (s.raiseFault k) := by
  simp only [exec, execUnmap, h, checked_some, State.conclude_error]

/-- Segment 0 is mapped and so passes the segment check; UNMAP refuses it by the check after that (R184). -/
theorem execUnmap_zero (c : Reg) (hi : s.Inv) (h : s.reg c = 0#32) :
    exec (.unmap c) s = .next (s.raiseFault .unmapSegmentZero) := by
  have hcheck := s.segCheck_of_mapped 0#32 (s.mapped_zero_of_inv hi)
  simp only [exec, execUnmap, h, hcheck, programIdCheck, if_true, checked_none, checked_some, State.conclude_error]

end

/-- Settles O46: MAP within capacity is an allocation whose id goes to `x[b]` (`execMap_ok`); which id, what its segment
holds and what every other id reads is `State.allocated_spec`. -/
theorem mapCreatesAZeroedSegment : Obligations.MapCreatesAZeroedSegment := by
  intro b c s hi hcap hmem
  have hroom : s.freeList = [] → s.tlen < s.cfg.nsegMax := fun h => lt_of_le_of_ne hi.tlen_le (hcap h)
  obtain ⟨hpop, hgrow, hne, hfresh, hmapped, hseg, _⟩ := s.allocated_spec (s.reg c).toNat hi hroom
  refine ⟨_, _, execMap_ok s b c ((s.allocateCheck_none_iff _).2 ⟨hroom, hmem⟩), State.reg_setReg_self _ _ _,
    hpop, hgrow, hne, hfresh, hmapped, congrArg Segment.len hseg,
    fun off ho => State.memRead_zero _ _ off _ hmapped hseg ho, s.readsAsOutside_allocated _ hi hroom,
    fun r hr => ?otherRegisters, ?frame⟩
  case otherRegisters => rw [State.reg_setReg_of_ne _ _ _ _ hr, State.allocated_reg]
  case frame => rw [State.allocated_eq]; rfl

/-- Settles O50: UNMAP leaves its id on top of the free-list and adds no words to the total, so the MAP is one within
capacity (`mapCreatesAZeroedSegment`) and takes that id. -/
theorem mapReusesTheReleasedId : Obligations.MapReusesTheReleasedId := by
  intro b c d s hi hm h0 hmem
  have hfits : ∀ m, s.cfg.memWordsMax = some m →
      (s.release (s.reg c)).mappedWords + (s.reg d).toNat ≤ m := fun m hmax =>
    (Nat.add_le_add_right (s.mappedWords_release_le _ hi) _).trans (hmem m hmax)
  obtain ⟨u, id, hu, hreg, hpop, _, _, _, _, hlen, hzero, _⟩ :=
    mapCreatesAZeroedSegment b d (s.release (s.reg c)) (s.inv_release _ hi hm h0) (by simp) hfits
  obtain ⟨rfl, hfl, htlen⟩ := hpop _ _ (s.freeList_release _)
  exact ⟨_, u, execUnmap_ok s c hm h0, hu, hreg, htlen.trans (s.tlen_release _), hfl, hlen, hzero⟩

/-- Settles O47: beyond capacity MAP's check fails (`State.allocateCheck_of_beyond`). -/
theorem mapBeyondCapacityFaults : Obligations.MapBeyondCapacityFaults := fun b c s h =>
  execMap_fault s b c _ (s.allocateCheck_of_beyond _ h)

/-- Settles O48: UNMAP of a mapped id other than 0 is the release of it (`execUnmap_ok`), after which its position is
there and on the free-list. -/
theorem unmapReleasesTheSegment : Obligations.UnmapReleasesTheSegment := by
  intro c s hm h0
  have hlt := ((s.mapped_iff _).1 hm).1
  exact ⟨_, execUnmap_ok s c hm h0, s.freeList_release _, s.tlen_release _, s.mapped_release_self _,
    s.segCheck_release_self _ hlt,
    fun off => State.memRead_of_unmapped _ _ off (hlt.trans_eq (s.tlen_release _).symm) List.mem_cons_self,
    s.readsAsOutside_release _, rfl⟩

/-- Settles O49: the two answers of the segment check, each passed on by `execUnmap_fault`, and the check for id 0
(`execUnmap_zero`). -/
theorem unmapFaults : Obligations.UnmapFaults := fun c s =>
  ⟨fun h => execUnmap_fault s c _ (s.segCheck_of_out_of_range _ h),
    fun h hf => execUnmap_fault s c _ (s.segCheck_of_unmapped _ h hf),
    fun hi h => execUnmap_zero s c hi h⟩

end Sys2Proof.Machine
end

section
/-! PROOFS. Byte input and output (45_io.md): what the answer to an INPUT is and what taking it changes, how INPUT and
OUTPUT complete, fault or wait, and that no instruction but INPUT looks at the input port. -/

namespace Sys2Proof.Machine

/-! ### The low byte of a word -/

/-- The bits 7:0 of a word are its value narrowed to 8 bits (R190). -/
theorem lowByte_eq_ofNat (v : Word) : lowByte v = BitVec.ofNat 8 v.toNat :=
  BitVec.eq_of_toNat_eq (by rw [lowByte, BitVec.extractLsb'_toNat, BitVec.toNat_ofNat, Nat.shiftRight_zero])

/-- A word of at most 255 is its low byte (R190). -/
theorem toNat_lowByte (v : Word) (h : v.toNat ≤ 255) : (lowByte v).toNat = v.toNat := by
  rw [lowByte_eq_ofNat, BitVec.toNat_ofNat, Nat.mod_eq_of_lt (by omega)]

section

variable (s : State)

/-! ### The answer to an INPUT (R194, R51) -/

/-- The device leaves an INPUT waiting exactly when no end-of-input persists, nothing it supplied is left and it is silent
(R196). -/
theorem State.inputReady_eq_false_iff :
    s.inputReady = false ↔ s.inputClosed = false ∧ s.input.arrived = [] ∧ s.input.silent = true := by
  simp [State.inputReady, and_assoc]

theorem State.inputReady_of_closed (h : s.inputClosed = true) : s.inputReady = true := by
  simp [State.inputReady, h]

theorem State.inputReady_of_arrived (e : InEvent) (rest : List InEvent) (h : s.input.arrived = e :: rest) :
    s.inputReady = true := by
  simp [State.inputReady, h]

/-- Once end-of-input persists it is the answer, and nothing is consumed. -/
theorem State.nextInput_of_closed (h : s.inputClosed = true) : s.nextInput = .endOfInput := if_pos h

theorem State.consumeInput_of_closed (h : s.inputClosed = true) : s.consumeInput = s := if_pos h

/-- Until then the oldest event supplied is the answer, and it is consumed. -/
theorem State.nextInput_of_arrived (e : InEvent) (rest : List InEvent) (ho : s.inputClosed = false)
    (h : s.input.arrived = e :: rest) : s.nextInput = e := by
  simp [State.nextInput, ho, h]

theorem State.consumeInput_of_arrived (e : InEvent) (rest : List InEvent) (ho : s.inputClosed = false)
    (h : s.input.arrived = e :: rest) : s.consumeInput = s.setInput
      ⟨rest, s.input.silent, s.input.answered + 1, s.input.ended || decide (e = .endOfInput)⟩ := by
  rw [State.consumeInput, if_neg (by simp [ho]), s.nextInput_of_arrived e rest ho h, InPort.taken, h, List.tail_cons]

/-! ### How an I/O instruction ends (R190, R194, R196) -/

theorem State.tryIo_input_of_ready (c : Reg) (h : s.inputReady = true) : s.tryIo (.input c) = s.completeInput c :=
  if_pos h

theorem State.tryIo_input_of_not_ready (c : Reg) (h : s.inputReady = false) :
    s.tryIo (.input c) = s.setWait (some (.input c)) := if_neg (by simp [h])

theorem State.tryIo_output_of_ready (b : Byte) (h : s.outReady = true) : s.tryIo (.output b) = s.completeOutput b :=
  if_pos h

theorem State.tryIo_output_of_not_ready (b : Byte) (h : s.outReady = false) :
    s.tryIo (.output b) = s.setWait (some (.output b)) := if_neg (by simp [h])

/-- A machine waits in its INPUT, or its OUTPUT, for as long as the device does not act. -/
theorem step_of_waiting_input_not_ready (c : Reg) (hr : s.status = .running) (hw : s.wait = some (.input c))
    (h : s.inputReady = false) : step s = .next s := by
  rw [step_of_waiting s _ hr hw, s.tryIo_input_of_not_ready c h, ← hw]
  rfl

theorem step_of_waiting_output_not_ready (b : Byte) (hr : s.status = .running) (hw : s.wait = some (.output b))
    (h : s.outReady = false) : step s = .next s := by
  rw [step_of_waiting s _ hr hw, s.tryIo_output_of_not_ready b h, ← hw]
  rfl

/-- The event the device supplies to a waiting INPUT is the one it completes with. -/
theorem step_of_waiting_input_supplied (c : Reg) (e : InEvent) (hr : s.status = .running)
    (hw : s.wait = some (.input c)) (h : s.inputReady = false) :
    step (s.deviceSupplies e) = .next ((s.deviceSupplies e).completeInput c) ∧ (s.deviceSupplies e).nextInput = e := by
  obtain ⟨hopen, hnone, _⟩ := s.inputReady_eq_false_iff.1 h
  have ha : (s.deviceSupplies e).input.arrived = [e] := congrArg (· ++ [e]) hnone
  refine ⟨?_, State.nextInput_of_arrived _ e [] hopen ha⟩
  rw [step_of_waiting (s.deviceSupplies e) _ hr hw,
    State.tryIo_input_of_ready _ c (State.inputReady_of_arrived _ e [] ha)]

/-- A completed INPUT holds its answer in `x[c]`. -/
@[simp] theorem State.reg_completeInput_self (c : Reg) : (s.completeInput c).reg c = inputValue s.nextInput :=
  State.reg_setReg_self _ _ _

theorem State.reg_completeInput_of_ne (c r : Reg) (h : r ≠ c) : (s.completeInput c).reg r = s.reg r := by
  obtain ⟨p, hp⟩ := s.consumeInput_eq
  rw [State.completeInput, State.reg_setWait, State.reg_setReg_of_ne _ _ _ _ h, hp, State.reg_setInput]

/-- A completed INPUT changes the register file and the input port, and ends the wait. -/
theorem State.completeInput_frame (c : Reg) : s.completeInput c =
    { s with regs := (s.completeInput c).regs, input := (s.completeInput c).input, wait := none } := by
  obtain ⟨p, hp⟩ := s.consumeInput_eq
  rw [State.completeInput, hp]
  rfl

/-- An INPUT the device has answered takes the answer: one register and the input port change (R194). -/
theorem execInput_completes (c : Reg) (hw : s.wait = none) (h : s.inputReady = true) :
    ∃ t, exec (.input c) s = .next t ∧ t.reg c = inputValue s.nextInput ∧ t.input = s.consumeInput.input ∧
      (∀ r, r ≠ c → t.reg r = s.reg r) ∧ t = { s with regs := t.regs, input := t.input } ∧ t.ReadsAs s := by
  have hframe := s.completeInput_frame c
  refine ⟨s.completeInput c, congrArg Host.Outcome.next (s.tryIo_input_of_ready c h), s.reg_completeInput_self c,
    rfl, s.reg_completeInput_of_ne c, ?_, ?_⟩
  · rwa [← hw] at hframe
  · rw [hframe]
    exact s.readsAs_of_same_table _ rfl rfl

/-- An INPUT takes the oldest event supplied, which leaves the port (R194, R51). -/
theorem execInput_takes (c : Reg) (e : InEvent) (rest : List InEvent) (hw : s.wait = none)
    (ho : s.inputClosed = false) (h : s.input.arrived = e :: rest) :
    ∃ t, exec (.input c) s = .next t ∧ t.reg c = inputValue e ∧
      t.input = ⟨rest, s.input.silent, s.input.answered + 1, s.input.ended || decide (e = .endOfInput)⟩ ∧
      (∀ r, r ≠ c → t.reg r = s.reg r) ∧ t = { s with regs := t.regs, input := t.input } ∧ t.ReadsAs s := by
  have hcompletes := execInput_completes s c hw (s.inputReady_of_arrived e rest h)
  rwa [s.nextInput_of_arrived e rest ho h, s.consumeInput_of_arrived e rest ho h] at hcompletes

/-- OUTPUT of a byte value is left to the device (R190, R196). -/
theorem execOutput_of_le (c : Reg) (h : (s.reg c).toNat ≤ 255) :
    exec (.output c) s = .next (s.tryIo (.output (lowByte (s.reg c)))) := by
  simp only [exec, execOutput, byteRangeCheck, if_neg h.not_gt, checked_none, State.conclude_ok]

/-- OUTPUT of a value above 255 is its fault, whatever the device does (R191). -/
theorem execOutput_of_gt (c : Reg) (h : 255 < (s.reg c).toNat) :
    exec (.output c) s = .next (s.raiseFault .outputOutOfRange) := by
  simp only [exec, execOutput, byteRangeCheck, if_pos h, checked_some, State.conclude_error]

end

/-- Settles O52: a ready device takes the low byte (`State.tryIo_output_of_ready`), which is all of `x[c]`
(`toNat_lowByte`). -/
theorem outputAppendsOneByte : Obligations.OutputAppendsOneByte := by
  intro c s hw hready hc
  have hexec : exec (.output c) s = .next (s.emit (lowByte (s.reg c))) := by
    rw [execOutput_of_le s c hc, s.tryIo_output_of_ready _ hready]
    exact congrArg Host.Outcome.next (State.setWait_none_of_none _ hw)
  exact ⟨_, _, hexec, rfl, toNat_lowByte _ hc, rfl, s.readsAs_of_same_table _ rfl rfl⟩

/-- Settles O53: the range check comes before anything is emitted (`execOutput_of_gt`). -/
theorem outputAboveAByteFaults : Obligations.OutputAboveAByteFaults := fun c s h => execOutput_of_gt s c h

/-- Settles O54: with an event supplied INPUT takes it (`execInput_takes`), a byte or the end mark; an end-of-input that
persists is the answer by itself (`execInput_completes`). -/
theorem inputTakesTheNextEvent : Obligations.InputTakesTheNextEvent := by
  intro c s hw
  refine ⟨fun byte rest hopen ha => ?byte, fun rest hopen ha => ?endMark, fun hended hsticky => ?stickyEnd⟩
  case byte =>
    obtain ⟨t, ht, hreg, hin, hframe⟩ := execInput_takes s c _ rest hw hopen ha
    refine ⟨t, ht, ?_, by simpa using hin, hframe⟩
    rw [hreg]
    exact BitVec.toNat_setWidth_of_le (by decide)
  case endMark =>
    obtain ⟨t, ht, hreg, hin, hframe⟩ := execInput_takes s c _ rest hw hopen ha
    exact ⟨t, ht, hreg, by simpa using hin, hframe⟩
  case stickyEnd =>
    have hclosed : s.inputClosed = true := by simp [State.inputClosed, hended, hsticky]
    obtain ⟨t, ht, hreg, hin, hother, hframe, hreads⟩ :=
      execInput_completes s c hw (s.inputReady_of_closed hclosed)
    rw [s.nextInput_of_closed hclosed] at hreg
    rw [s.consumeInput_of_closed hclosed] at hin
    rw [hin] at hframe
    exact ⟨t, ht, hreg, hin, hother, hframe, hreads⟩

/-- Settles O55: an INPUT completes once the device has answered (`execInput_completes`), and the value of any answer is
in range (`inputValue_range`). -/
theorem inputCompletesWhateverTheStream : Obligations.InputCompletesWhateverTheStream := by
  intro c s hw hready
  obtain ⟨t, ht, hreg, _, hframe⟩ := execInput_completes s c hw hready
  exact ⟨t, ht, hreg ▸ inputValue_range s.nextInput, hframe⟩

/-- Settles O56: nothing happens until the device acts (`step_of_waiting_input_not_ready`,
`step_of_waiting_output_not_ready`), and its move is what the waiting instruction completes with. -/
theorem ioWaitsForTheDevice : Obligations.IoWaitsForTheDevice := by
  intro c s hr hw
  refine ⟨fun hready => ?input, fun hready hc => ?output⟩
  case input =>
    refine ⟨congrArg Host.Outcome.next (s.tryIo_input_of_not_ready c hready),
      step_of_waiting_input_not_ready _ c hr rfl hready, fun e => ?_⟩
    obtain ⟨hstep, hnext⟩ :=
      step_of_waiting_input_supplied { s with wait := some (.input c) } c e hr rfl hready
    have hframe := State.completeInput_frame (State.deviceSupplies { s with wait := some (.input c) } e) c
    rw [← hw] at hframe
    exact ⟨_, hstep, (State.reg_completeInput_self _ c).trans (congrArg inputValue hnext),
      State.reg_completeInput_of_ne _ c, hframe⟩
  case output =>
    refine ⟨?_, step_of_waiting_output_not_ready _ _ hr rfl hready, ?_⟩
    · rw [execOutput_of_le s c hc, s.tryIo_output_of_not_ready _ hready]
      rfl
    · rw [← lowByte_eq_ofNat, hw]
      exact step_of_waiting (State.deviceOutReady { s with wait := _ } true) _ hr rfl

/-! ### The input port and the other instructions (R195) -/

section

variable (s : State) (p : InPort)

/-- UNMAP's fault of the check for id 0, before anything is released (R184). -/
theorem execUnmap_of_programId (c : Reg) (hk : s.segCheck (s.reg c) = none) (h0 : s.reg c = 0#32) :
    exec (.unmap c) s = .next (s.raiseFault .unmapSegmentZero) := by
  simp only [exec, execUnmap, hk, programIdCheck, if_pos h0, checked_none, checked_some, State.conclude_error]

/-- LOADP's fault of the segment check, before segment 0 is replaced (R201). -/
theorem execLoadp_of_segCheck (b c : Reg) (k : Cause) (hb : s.reg b ≠ 0#32) (h : s.segCheck (s.reg b) = some k) :
    exec (.loadp b c) s = .next (s.raiseFault k) := by
  simp only [exec, execLoadp, if_neg hb, h, checked_some, State.conclude_error]

/-- LOADP's fault of the capacity check, before segment 0 is replaced (R201). -/
theorem execLoadp_of_duplicateCheck (b c : Reg) (k : Cause) (hb : s.reg b ≠ 0#32) (hm : s.mapped (s.reg b) = true)
    (h : s.duplicateCheck (s.reg b) = some k) : exec (.loadp b c) s = .next (s.raiseFault k) := by
  simp only [exec, execLoadp, if_neg hb, s.segCheck_of_mapped _ hm, checked_none, State.duplicateInto0, h,
    checked_some, Except.map, State.conclude_error]

/-- The word at `(0, pc)` of a running machine that cannot be read is the fetch's fault (R30). -/
theorem step_of_fetch_fault (k : Cause) (hr : s.status = .running) (hw : s.wait = none)
    (hpc : s.pc < s.segLen 0#32) (h : s.memRead 0#32 s.pc = .error k) : step s = .next (s.raiseFault k) :=
  step_of_ended s _ (by simp [State.sequence, State.fetch, hr, hw, hpc.ne, hpc.not_gt, h])

theorem State.allocated_setInput (n : Nat) :
    (s.setInput p).allocated n = ((s.allocated n).1, (s.allocated n).2.setInput p) := by
  rcases hfl : s.freeList with _ | ⟨id, rest⟩ <;>
    simp only [State.allocated, State.setInput_freeList, hfl] <;> rfl

theorem State.tryIo_output_setInput (b : Byte) :
    (s.setInput p).tryIo (.output b) = (s.tryIo (.output b)).setInput p := by
  cases h : s.outReady with
  | true =>
    rw [s.tryIo_output_of_ready b h, State.tryIo_output_of_ready (s.setInput p) b h]
    rfl
  | false =>
    rw [s.tryIo_output_of_not_ready b h, State.tryIo_output_of_not_ready (s.setInput p) b h]
    rfl

theorem State.pastEnd_setInput : (s.setInput p).pastEnd = s.pastEnd.setInput p := by
  cases h : s.cfg.pcPastEnd <;> simp only [State.pastEnd, State.setInput_cfg, h] <;> rfl

/-- An instruction other than INPUT does the same with any other input port: its checks and operands read none. -/
theorem exec_setInput (i : Instr) (hi : ∀ c, i ≠ .input c) :
    ∃ t, exec i s = .next t ∧ exec i (s.setInput p) = .next (t.setInput p) := by
  cases i with
  | cmov a b c =>
    by_cases h : s.reg c = 0#32
    · exact ⟨s, execCmov_of_eq_zero s a b c h, execCmov_of_eq_zero (s.setInput p) a b c h⟩
    · exact ⟨_, execCmov_of_ne_zero s a b c h, execCmov_of_ne_zero (s.setInput p) a b c h⟩
  | sload a b c =>
    rcases hk : s.accessCheck (s.reg b) (s.reg c).toNat with _ | k
    · obtain ⟨hm, ho⟩ := (s.accessCheck_none_iff _ _).1 hk
      exact ⟨_, execSload_ok s a b c hm ho, execSload_ok (s.setInput p) a b c hm ho⟩
    · exact ⟨_, execSload_fault s a b c k hk, execSload_fault (s.setInput p) a b c k hk⟩
  | sstore a b c =>
    rcases hk : s.accessCheck (s.reg a) (s.reg b).toNat with _ | k
    · obtain ⟨hm, ho⟩ := (s.accessCheck_none_iff _ _).1 hk
      exact ⟨_, execSstore_ok s a b c hm ho, execSstore_ok (s.setInput p) a b c hm ho⟩
    · exact ⟨_, execSstore_fault s a b c k hk, execSstore_fault (s.setInput p) a b c k hk⟩
  | add a b c => exact ⟨_, rfl, rfl⟩
  | mul a b c => exact ⟨_, rfl, rfl⟩
  | div a b c =>
    by_cases h : s.reg c = 0#32
    · exact ⟨_, execDiv_of_eq_zero s a b c h, execDiv_of_eq_zero (s.setInput p) a b c h⟩
    · exact ⟨_, execDiv_of_ne_zero s a b c h, execDiv_of_ne_zero (s.setInput p) a b c h⟩
  | nand a b c => exact ⟨_, rfl, rfl⟩
  | halt => exact ⟨_, rfl, rfl⟩
  | map b c =>
    rcases hk : s.allocateCheck (s.reg c).toNat with _ | k
    · refine ⟨_, execMap_ok s b c hk, (execMap_ok (s.setInput p) b c hk).trans ?_⟩
      rw [State.reg_setInput, State.allocated_setInput]
      rfl
    · exact ⟨_, execMap_fault s b c k hk, execMap_fault (s.setInput p) b c k hk⟩
  | unmap c =>
    rcases hk : s.segCheck (s.reg c) with _ | k
    · have hm := (s.segCheck_none_iff _).1 hk
      by_cases h0 : s.reg c = 0#32
      · exact ⟨_, execUnmap_of_programId s c hk h0, execUnmap_of_programId (s.setInput p) c hk h0⟩
      · exact ⟨_, execUnmap_ok s c hm h0, execUnmap_ok (s.setInput p) c hm h0⟩
    · exact ⟨_, execUnmap_fault s c k hk, execUnmap_fault (s.setInput p) c k hk⟩
  | output c =>
    rcases Nat.lt_or_ge 255 (s.reg c).toNat with h | h
    · exact ⟨_, execOutput_of_gt s c h, execOutput_of_gt (s.setInput p) c h⟩
    · refine ⟨_, execOutput_of_le s c h, (execOutput_of_le (s.setInput p) c h).trans ?_⟩
      rw [State.tryIo_output_setInput, State.reg_setInput]
  | input c => exact absurd rfl (hi c)
  | loadp b c =>
    by_cases hb : s.reg b = 0#32
    · exact ⟨_, execLoadp_jump s b c hb, execLoadp_jump (s.setInput p) b c hb⟩
    · rcases hk : s.segCheck (s.reg b) with _ | k
      · have hm := (s.segCheck_none_iff _).1 hk
        rcases hd : s.duplicateCheck (s.reg b) with _ | k
        · exact ⟨_, execLoadp_ok s b c hb hm hd, execLoadp_ok (s.setInput p) b c hb hm hd⟩
        · exact ⟨_, execLoadp_of_duplicateCheck s b c k hb hm hd,
            execLoadp_of_duplicateCheck (s.setInput p) b c k hb hm hd⟩
      · exact ⟨_, execLoadp_of_segCheck s b c k hb hk, execLoadp_of_segCheck (s.setInput p) b c k hb hk⟩
  | loadv a imm => exact ⟨_, rfl, rfl⟩
  | illegal14 => exact ⟨_, rfl, rfl⟩
  | illegal15 => exact ⟨_, rfl, rfl⟩

/-- A step that runs no INPUT does the same with any other input port. -/
theorem step_setInput (hwait : ∀ c, s.wait ≠ some (.input c))
    (hword : ∀ w c, s.memRead 0#32 s.pc = .ok w → decode w ≠ .input c) :
    ∃ t, step s = .next t ∧ step (s.setInput p) = .next (t.setInput p) := by
  by_cases hr : s.status = .running
  · rcases hw : s.wait with _ | ⟨c⟩ | ⟨b⟩
    · rcases Nat.lt_trichotomy s.pc (s.segLen 0#32) with hpc | hpc | hpc
      · rcases hm : s.memRead 0#32 s.pc with k | w
        · exact ⟨_, step_of_fetch_fault s k hr hw hpc hm, step_of_fetch_fault (s.setInput p) k hr hw hpc hm⟩
        · obtain ⟨t, ht, htp⟩ := exec_setInput s.advancePc p (decode w) fun c => hword w c hm
          exact ⟨t, (step_of_fetched s w hr hw hm).trans ht, (step_of_fetched (s.setInput p) w hr hw hm).trans htp⟩
      · exact ⟨_, step_at_end s hr hw hpc, step_at_end (s.setInput p) hr hw hpc⟩
      · exact ⟨_, step_past_end s hr hw hpc, s.pastEnd_setInput p ▸ step_past_end (s.setInput p) hr hw hpc⟩
    · exact absurd hw (hwait c)
    · exact ⟨_, step_of_waiting s _ hr hw, s.tryIo_output_setInput p b ▸ step_of_waiting (s.setInput p) _ hr hw⟩
  · exact ⟨s, step_of_over s hr, step_of_over (s.setInput p) hr⟩

end

/-- Settles O30: the same step with any other port is `step_setInput`; with the port of `s` itself put in its place, it says
that the step leaves that port as it is. -/
theorem stepsWithoutInputIgnoreTheStream : Obligations.StepsWithoutInputIgnoreTheStream := by
  intro s p hwait hword
  obtain ⟨t, ht, htp⟩ := step_setInput s p hwait hword
  obtain ⟨u, hu, hus⟩ := step_setInput s s.input hwait hword
  have htu : t = u := Host.Outcome.next.inj (ht.symm.trans hu)
  have hkeep : u.setInput s.input = u := Host.Outcome.next.inj (hus.symm.trans hu)
  exact ⟨t, ht, by rw [htu, ← hkeep, State.setInput_input], htp⟩

end Sys2Proof.Machine
end

section
/-! PROOFS. Load program (46_loadp.md): what a copy made segment 0 reads as, and the capacity check of the copy when it
fails. -/

namespace Sys2Proof.Machine

section

variable (s : State)

/-- Under parameters in their ranges `pc` holds all of a value below 2^32, and nothing else is written (R28). -/
theorem State.setPc_eq_of_wf (v : Nat) (hc : s.cfg.wf = true) (hv : v < 2 ^ 32) : s.setPc v = { s with pc := v } := by
  rw [State.setPc, s.pc_fits v hc hv]

/-- Reading a mapped segment at or beyond its length faults (R65, R66). -/
theorem State.memRead_of_offset (id : Word) (off : Nat) (hm : s.mapped id = true) (ho : s.segLen id ≤ off) :
    s.memRead id off = .error .offsetOutOfRange := by
  simp only [State.memRead, s.accessCheck_of_offset id off hm ho]

/-- A segment put in place of segment 0 brings its length (R45, R73). -/
theorem State.segLen_setSeg_zero (g : Segment) (hi : s.Inv) : (s.setSeg 0#32 g).segLen 0#32 = g.len :=
  congrArg Segment.len (s.seg_setSeg_self 0#32 g hi.tlen_pos)

/-- A copy of a mapped segment made segment 0 reads at every offset as the segment did: inside the common length the same
word, from there on the same fault (R73). -/
theorem State.memRead_setSeg_zero_seg (id : Word) (off : Nat) (hi : s.Inv) (hm : s.mapped id = true) :
    (s.setSeg 0#32 (s.seg id)).memRead 0#32 off = s.memRead id off := by
  have hlen : (s.setSeg 0#32 (s.seg id)).segLen 0#32 = s.segLen id := s.segLen_setSeg_zero _ hi
  have hm0 : (s.setSeg 0#32 (s.seg id)).mapped 0#32 = true := by
    rw [State.mapped_setSeg]
    exact s.mapped_zero_of_inv hi
  rcases Nat.lt_or_ge off (s.segLen id) with ho | ho
  · rw [s.memRead_setSeg_zero _ off hi ho, s.memRead_ok id off hm ho]
  · rw [State.memRead_of_offset _ _ off hm0 (hlen.le.trans ho), s.memRead_of_offset id off hm ho]

/-- Beyond capacity the check of the copy raises its one fault (R75). -/
theorem State.duplicateCheck_of_beyond (id : Word) (m : Nat) (hm : s.cfg.memWordsMax = some m)
    (hover : m < s.mappedWords - s.segLen 0#32 + s.segLen id) : s.duplicateCheck id = some .resourceExhausted :=
  (s.duplicateCheck_cases id).resolve_left fun hnone =>
    absurd ((s.duplicateCheck_none_iff id).1 hnone m hm) hover.not_ge

end

/-- Settles O57: the jump and the copy are `execLoadp_jump` and `execLoadp_ok`; the counter holds a register's value
whole (`State.pc_fits`), and segment 0 reads as its source did (`State.memRead_setSeg_zero_seg`). -/
theorem loadpLoadsAndJumps : Obligations.LoadpLoadsAndJumps := by
  intro b c s
  refine ⟨fun h0 => ?jump, fun hi hb hm hmem => ?load⟩
  case jump =>
    exact ⟨_, execLoadp_jump s b c h0, rfl, fun hcfg => s.pc_fits _ hcfg (s.reg c).isLt,
      s.readsAs_of_same_table _ rfl rfl⟩
  case load =>
    have hx := (s.reg c).isLt
    exact ⟨_, execLoadp_ok s b c hb hm ((s.duplicateCheck_none_iff _).2 hmem), s.pc_fits _ hi.cfg_wf hx,
      s.segLen_setSeg_zero _ hi, fun off => s.memRead_setSeg_zero_seg _ off hi hm,
      fun p hp => s.memRead_setSeg_ne _ _ _ _ hp, s.tlen_setSeg _ _,
      State.setPc_eq_of_wf (s.setSeg 0#32 (s.seg (s.reg b))) _ hi.cfg_wf hx⟩

/-- Settles O58: the two answers of the segment check (`execLoadp_of_segCheck`), then that of the capacity check
(`execLoadp_of_duplicateCheck`); a jump makes neither check. -/
theorem loadpFaults : Obligations.LoadpFaults := fun b c s =>
  ⟨fun hb h => execLoadp_of_segCheck s b c _ hb (s.segCheck_of_out_of_range _ h),
    fun hb h hf => execLoadp_of_segCheck s b c _ hb (s.segCheck_of_unmapped _ h hf),
    fun m hb hm hmax hover =>
      execLoadp_of_duplicateCheck s b c _ hb hm (s.duplicateCheck_of_beyond _ m hmax hover),
    fun h0 => ⟨_, execLoadp_jump s b c h0, rfl, rfl⟩⟩

end Sys2Proof.Machine
end

section
/-! PROOFS. Load value (47_loadv.md): the immediate as a word, and the register LOADV writes it to. -/

namespace Sys2Proof.Machine

/-- An immediate that fits loses nothing in its 25 bits, and zero extension keeps its value (R110, R210). -/
theorem toNat_immOperand (imm : Nat) (hfits : imm < 2 ^ 25) : (immOperand imm).toNat = imm := by
  have hword : imm < 2 ^ 32 := hfits.trans (by decide)
  simp only [immOperand, BitVec.toNat_setWidth, BitVec.toNat_ofNat, Nat.mod_eq_of_lt hfits, Nat.mod_eq_of_lt hword]

theorem execLoadv_eq_setReg (s : State) (a : Reg) (imm : Nat) :
    exec (.loadv a imm) s = .next (s.setReg a (immOperand imm)) := rfl

/-- An encodable LOADV completes with its immediate in `x[a]` and nothing else changed (R210). -/
theorem execLoadv_completes (s : State) (a : Reg) (imm : Nat) (hwf : (Instr.loadv a imm).wf = true) :
    ∃ t, exec (.loadv a imm) s = .next t ∧ (t.reg a).toNat = imm ∧ s.OnlyRegister a t :=
  completes_of_exec_eq_setReg s a (fun v => v.toNat = imm) (execLoadv_eq_setReg s a imm)
    (toNat_immOperand imm (of_decide_eq_true hwf))

/-- Settles O40: on the instruction this is `execLoadv_completes`; a word of opcode 13 decodes to a LOADV of its two
fields (`decode_loadv`), which is encodable as every decoded instruction is (`decode_wf`). -/
theorem loadvZeroExtends : Obligations.LoadvZeroExtends := by
  refine ⟨fun a imm s hwf => execLoadv_completes s a imm hwf, fun w s hop => ?_⟩
  have hdec : decode w = .loadv (aImmField w) (immField w).toNat := decode_loadv ((toNat_opField w).trans hop)
  have hwf : (Instr.loadv (aImmField w) (immField w).toNat).wf = true := hdec ▸ decode_wf w
  rw [hdec, ← aImmField_eq, ← toNat_immField]
  exact execLoadv_completes s _ _ hwf

end Sys2Proof.Machine
end

section
/-! PROOFS. Fatal faults (60_exceptions.md): the exit status of each STATUS, that an instruction ends in FAULTED by its
fault alone, and which instructions raise ILLEGAL_OPCODE. -/

namespace Sys2Proof.Machine

section

variable (s : State)

/-! ### The exit status (R238) -/

theorem State.exitStatus_of_halted (h : s.status = .halted) : s.exitStatus = some 0 :=
  (s.exitStatus_eq_some_iff 0).2 (.inl ⟨h, rfl⟩)

theorem State.exitStatus_of_faulted (h : s.status = .faulted) : s.exitStatus = some s.cfg.exitFault :=
  (s.exitStatus_eq_some_iff _).2 (.inr ⟨h, rfl⟩)

/-- A run has an exit status exactly when it is over (R39). -/
theorem State.exitStatus_eq_none_iff : s.exitStatus = none ↔ s.status = .running := by
  cases h : s.status with
  | running => simp [State.exitStatus, h]
  | halted => simp [s.exitStatus_of_halted h]
  | faulted => simp [s.exitStatus_of_faulted h]

theorem exitFault_ne_zero_of_wf (cfg : Config) (h : cfg.wf = true) : cfg.exitFault ≠ 0 := by
  obtain ⟨_, _, _, _, _, hexit⟩ := (Config.wf_iff cfg).1 h
  exact hexit

/-! ### The one way into FAULTED (R222, R223) -/

/-- An I/O instruction, complete or waiting, leaves STATUS as it is. -/
@[simp] theorem State.tryIo_status (w : IoWait) : (s.tryIo w).status = s.status := by
  obtain ⟨_, _, _, _, e⟩ := s.tryIo_eq w; rw [e]

@[simp] theorem State.allocated_status (n : Nat) : (s.allocated n).2.status = s.status := by rw [State.allocated_eq]

end

section

variable {s t : State} {i : Instr}

/-- An instruction leaves STATUS as it is, or halts, or its one effect is a fault it can raise. -/
theorem Effect.status_cases (e : Effect s i t) :
    t.status = s.status ∨ t.status = .halted ∨ ∃ c ∈ causesOf i, t = s.raiseFault c := by
  cases e with
  | fault _ c hc => exact .inr (.inr ⟨c, hc, rfl⟩)
  | halt => exact .inr (.inl rfl)
  | map b c _ => exact .inl (s.allocated_status _)
  | input c => exact .inl (s.tryIo_status _)
  | output c b _ => exact .inl (s.tryIo_status _)
  | _ => exact .inl rfl

/-- A RUNNING machine that an instruction leaves FAULTED has taken a fault the instruction can raise, and nothing else has
happened. -/
theorem exec_faulted (hr : s.status = .running) (h : exec i s = .next t) (hf : t.status = .faulted) :
    ∃ c ∈ causesOf i, t = s.raiseFault c := by
  rcases (exec_effect s i t h).status_cases with hsame | hhalt | hfault
  · rw [hsame, hr] at hf; cases hf
  · rw [hhalt] at hf; cases hf
  · exact hfault

/-! ### ILLEGAL_OPCODE (R224) -/

theorem exec_illegal14 : exec .illegal14 s = .next (s.raiseFault .illegalOpcode) := rfl

theorem exec_illegal15 : exec .illegal15 s = .next (s.raiseFault .illegalOpcode) := rfl

/-- Only the two illegal opcodes list this cause (R234). -/
theorem opcodeOf_of_illegalOpcode_mem (h : Cause.illegalOpcode ∈ causesOf i) : 14 ≤ (opcodeOf i).toNat := by
  cases i with
  | illegal14 => decide
  | illegal15 => decide
  | _ => simp [causesOf] at h

/-- A word with an opcode from 14 on is an illegal instruction, whatever its other bits (R108). -/
theorem decode_illegal (w : Word) (h : 14 ≤ (opField w).toNat) : decode w = .illegal14 ∨ decode w = .illegal15 := by
  have hlt := (opField w).isLt
  obtain h14 | h15 : (opField w).toNat = 14 ∨ (opField w).toNat = 15 := by omega
  · exact .inl (decode_illegal14 h14)
  · exact .inr (decode_illegal15 h15)

end

/-- Settles O23: every step answers its `stepped` state, and every meaning ends in a next state (`exec_total`). -/
theorem everyStepAnswersAState : Obligations.EveryStepAnswersAState :=
  ⟨fun s => ⟨s.stepped, step_eq_stepped s⟩, fun i s => exec_total s i⟩

/-- Settles O32: the instruction's one way into FAULTED is `raiseFault` with a listed cause (`exec_faulted`). -/
theorem faultsArePrecise : Obligations.FaultsArePrecise := by
  intro i s t hr h hf
  obtain ⟨c, hc, rfl⟩ := exec_faulted hr h hf
  exact ⟨rfl, hc⟩

/-- Settles O26: the exit status for each STATUS; EXIT_FAULT is non-zero in its range (R11). -/
theorem exitStatusFollowsStatus : Obligations.ExitStatusFollowsStatus := fun s =>
  ⟨s.exitStatus_eq_none_iff.2, s.exitStatus_of_halted, s.exitStatus_of_faulted,
    fun hi => exitFault_ne_zero_of_wf s.cfg hi.cfg_wf⟩

/-- Settles O34: a word of opcode 14 or 15 decodes to an illegal instruction (`decode_illegal`); the cause a word below
that raises is one of its instruction's (`exec_faulted`), so it is another (`opcodeOf_of_illegalOpcode_mem`). -/
theorem illegalOpcodesFault : Obligations.IllegalOpcodesFault := by
  refine ⟨fun s => ⟨exec_illegal14, exec_illegal15⟩, fun w s hop => ?illegal, fun w s t hop hr h hf hc => ?legal⟩
  case illegal =>
    rw [← toNat_opField] at hop
    rcases decode_illegal w hop with e | e
    · rw [e]; exact exec_illegal14
    · rw [e]; exact exec_illegal15
  case legal =>
    obtain ⟨c, hmem, rfl⟩ := exec_faulted hr h hf
    rw [State.raiseFault_cause] at hc
    have h14 := opcodeOf_of_illegalOpcode_mem (hc ▸ hmem)
    rw [opcodeOf_decode, toNat_opField] at h14
    omega

end Sys2Proof.Machine
end

section
/-! PROOFS. Reset, image load and the host contract (70_reset_and_hazards.md): the words of an image, the state a run
begins in, how a run ends, and the three ways it never does. -/

namespace Sys2Proof

/-! ### The words of an image (R263, R77) -/

theorem length_imageWords (image : List Byte) : (imageWords image).length = (image.length + 3) / 4 := by
  induction image using imageWords.induct with
  | case5 b0 b1 b2 b3 rest ih => simp only [imageWords, List.length_cons, ih]; omega
  | _ => simp [imageWords]

/-- The first word is the first four bytes, a missing one 0; the other words are those of the bytes after them. -/
theorem imageWords_of_ne_nil (image : List Byte) (h : image ≠ []) :
    imageWords image = wordOfBytes (image.getD 0 0#8) (image.getD 1 0#8) (image.getD 2 0#8) (image.getD 3 0#8) ::
      imageWords (image.drop 4) := by
  cases image using imageWords.induct with
  | case1 => exact absurd rfl h
  | _ => rfl

/-- Word `i` is the bytes from `4i` on; beyond the image bytes and words are 0. -/
theorem getD_imageWords (image : List Byte) (i : Nat) :
    (imageWords image).getD i 0#32 = wordOfBytes (image.getD (4 * i) 0#8) (image.getD (4 * i + 1) 0#8)
      (image.getD (4 * i + 2) 0#8) (image.getD (4 * i + 3) 0#8) := by
  induction i generalizing image with
  | zero =>
    by_cases h : image = []
    · subst h; decide
    · rw [imageWords_of_ne_nil image h, List.getD_cons_zero]
  | succ i ih =>
    by_cases h : image = []
    · subst h; simp only [imageWords, List.getD_nil]; decide
    · have hbyte : ∀ j, (image.drop 4).getD j 0#8 = image.getD (4 + j) 0#8 := fun j => by
        simp only [List.getD_eq_getElem?_getD, List.getElem?_drop]
      rw [imageWords_of_ne_nil image h, List.getD_cons_succ, ih]
      simp only [hbyte, Nat.mul_add_one, Nat.add_comm 4, Nat.add_right_comm _ _ 4]

/-- Settles O9: `getD_imageWords`, and the value of four bytes (`toNat_wordOfBytes`). -/
theorem imageIsBigEndianAndZeroFilled : Obligations.ImageIsBigEndianAndZeroFilled := fun image =>
  ⟨length_imageWords image, fun i _ => by rw [getD_imageWords, toNat_wordOfBytes]⟩

end Sys2Proof

namespace Sys2Proof.Machine

/-! ### Reset with an image (R260 to R262) -/

theorem State.boot_of_fits (cfg : Config) (image : List Byte) (h : (imageWords image).length ≤ cfg.imageWordsMax) :
    State.boot cfg image = some { State.reset with cfg := cfg, segs := [Segment.ofWords (imageWords image)] } :=
  (State.boot_eq_some_iff cfg image _).2 ⟨h, rfl⟩

theorem State.boot_of_too_long (cfg : Config) (image : List Byte) (h : cfg.imageWordsMax < (imageWords image).length) :
    State.boot cfg image = none := if_neg h.not_ge

/-- Segment 0 of a booted state reads as the image's words. -/
theorem State.memRead_of_boot (cfg : Config) (image : List Byte) (s : State) (hc : cfg.wf = true)
    (h : State.boot cfg image = some s) (off : Nat) (ho : off < (imageWords image).length) :
    s.memRead 0#32 off = .ok ((imageWords image).getD off 0#32) := by
  have hm := s.mapped_zero_of_inv (State.inv_boot cfg image s hc h)
  obtain ⟨_, rfl⟩ := (State.boot_eq_some_iff cfg image s).1 h
  exact (State.memRead_eq_ok_iff _ _ _ _).2 ⟨hm, ho, Segment.word_ofWords _ off⟩

/-- Settles O13: `State.inv_boot`. -/
theorem bootMeetsTheInvariant : Obligations.BootMeetsTheInvariant := State.inv_boot

/-- Settles O10: segment 0 reads as the image (`State.memRead_of_boot`), every other field is `State.reset`'s. -/
theorem bootGivesTheResetState : Obligations.BootGivesTheResetState := by
  refine fun cfg image hc => ⟨fun hfits => ?boots, State.boot_of_too_long cfg image⟩
  have hboot := State.boot_of_fits cfg image hfits
  obtain ⟨hregs, _⟩ := resetClearsRegistersAndPc
  exact ⟨_, hboot, hregs, rfl, rfl, length_imageWords image,
    fun off ho => State.memRead_of_boot cfg image _ hc hboot off (ho.trans_eq (length_imageWords image).symm),
    rfl, rfl, rfl, rfl, rfl, rfl, rfl, rfl⟩

/-! ### A machine that waits for good (R196, R268) -/

section

variable (s : State)

/-- While the input device is silent and supplies nothing, only the output device's readiness can change. -/
theorem State.devices_of_silent (ms : List DeviceMove) (hs : s.input.silent = true)
    (h : ∀ m ∈ ms, m = .silent true ∨ ∃ b, m = .outReady b) : ∃ b, s.devices ms = s.deviceOutReady b := by
  induction ms generalizing s with
  | nil => exact ⟨s.outReady, rfl⟩
  | cons m ms ih =>
    obtain ⟨hm, hms⟩ := List.forall_mem_cons.1 h
    rcases hm with rfl | ⟨b, rfl⟩
    · have hsame : s.deviceMove (.silent true) = s := by
        show s.setInput { s.input with silent := true } = s
        rw [← hs]; rfl
      rw [State.devices_cons, hsame]
      exact ih s hs hms
    · exact ih (s.deviceOutReady b) hs hms

/-- While the output device takes nothing, only the input port can change. -/
theorem State.devices_of_never_outReady (ms : List DeviceMove) (hs : s.outReady = false)
    (h : .outReady true ∉ ms) : ∃ p, s.devices ms = s.setInput p := by
  induction ms generalizing s with
  | nil => exact ⟨s.input, rfl⟩
  | cons m ms ih =>
    rw [List.mem_cons, not_or] at h
    obtain ⟨hm, hms⟩ := h
    cases m with
    | supplies e => exact ih (s.deviceSupplies e) hs hms
    | silent b => exact ih (s.deviceSilent b) hs hms
    | outReady b =>
      have hb : b = false := Bool.eq_false_iff.2 fun hb => hm (by rw [hb])
      have hsame : s.deviceMove (.outReady b) = s := by
        show s.deviceOutReady b = s
        rw [hb, ← hs]; rfl
      rw [State.devices_cons, hsame]
      exact ih s hs hms

variable (env : Environment) (n : Nat)

/-- A run that waits in an INPUT nobody answers stays there. -/
theorem State.runIn_of_silent (c : Reg) (hr : (s.runIn env n).status = .running)
    (hw : (s.runIn env n).wait = some (.input c)) (hready : (s.runIn env n).inputReady = false)
    (henv : ∀ k, n ≤ k → ∀ m ∈ env k, m = .silent true ∨ ∃ b, m = .outReady b) (k : Nat) (hk : n ≤ k) :
    ∃ b, s.runIn env k = (s.runIn env n).deviceOutReady b := by
  obtain ⟨_, _, hsilent⟩ := (State.inputReady_eq_false_iff _).1 hready
  induction k, hk using Nat.le_induction with
  | base => exact ⟨_, rfl⟩
  | succ k hk ih =>
    obtain ⟨b, hb⟩ := ih
    obtain ⟨d, hd⟩ := ((s.runIn env n).deviceOutReady b).devices_of_silent (env k) hsilent (henv k hk)
    rw [State.runIn_succ, hb, hd]
    exact ⟨d, State.stepped_of_step _ _ (step_of_waiting_input_not_ready _ c hr hw hready)⟩

/-- A run that waits in an OUTPUT nobody takes stays there. -/
theorem State.runIn_of_never_outReady (b : Byte) (hr : (s.runIn env n).status = .running)
    (hw : (s.runIn env n).wait = some (.output b)) (hready : (s.runIn env n).outReady = false)
    (henv : ∀ k, n ≤ k → .outReady true ∉ env k) (k : Nat) (hk : n ≤ k) :
    ∃ p, s.runIn env k = (s.runIn env n).setInput p := by
  induction k, hk using Nat.le_induction with
  | base => exact ⟨_, rfl⟩
  | succ k hk ih =>
    obtain ⟨p, hp⟩ := ih
    obtain ⟨q, hq⟩ := ((s.runIn env n).setInput p).devices_of_never_outReady (env k) hready (henv k hk)
    rw [State.runIn_succ, hp, hq]
    exact ⟨q, State.stepped_of_step _ _ (step_of_waiting_output_not_ready _ b hr hw hready)⟩

/-! ### A program that loops (R268) -/

/-- A run that is back in its state after `p` steps, with the devices going on as they did, is back after every further
`p` steps. -/
theorem State.runIn_periodic (p : Nat) (h : s.runIn env (n + p) = s.runIn env n)
    (henv : ∀ k, n ≤ k → env (k + p) = env k) (j : Nat) : s.runIn env (n + j * p) = s.runIn env n := by
  have hshift : ∀ k, n ≤ k → s.runIn env (k + p) = s.runIn env k := fun k hk => by
    induction k, hk using Nat.le_induction with
    | base => exact h
    | succ k hk ih => rw [Nat.add_right_comm, State.runIn_succ, State.runIn_succ, ih, henv k hk]
  induction j with
  | zero => rw [Nat.zero_mul, Nat.add_zero]
  | succ j ih => rw [Nat.add_one_mul, ← Nat.add_assoc, hshift _ (Nat.le_add_right _ _), ih]

/-! ### The exit status of a run (R268, R238) -/

/-- An exit status stays. -/
theorem State.runIn_exitStatus_of_le (m e : Nat) (hm : n ≤ m) (h : (s.runIn env n).exitStatus = some e) :
    (s.runIn env m).exitStatus = some e := by
  have hover : (s.runIn env n).status ≠ .running := fun hr => by
    rw [(State.exitStatus_eq_none_iff _).2 hr] at h; cases h
  rw [State.exitStatus_eq_some_iff, State.runIn_cfg] at h ⊢
  rwa [s.runIn_status_of_over env n m hm hover]

end

section

variable {cfg : Config} {image : List Byte} {b : State} (hb : State.boot cfg image = some b) (env : Environment) (n : Nat)

include hb

theorem runState_of_boot : runState cfg image env n = some (b.runIn env n) :=
  (runState_eq_some_iff env cfg image n _).2 ⟨b, hb, rfl⟩

theorem runImage_of_boot : runImage cfg image env n = (b.runIn env n).exitStatus := by
  rw [runImage, runState_of_boot hb, Option.bind_some]

theorem cfg_of_boot : b.cfg = cfg := by
  obtain ⟨_, rfl⟩ := (State.boot_eq_some_iff cfg image b).1 hb
  rfl

theorem returns_iff (e : Nat) : Returns cfg image env e ↔ ∃ n, (b.runIn env n).exitStatus = some e := by
  simp only [Returns, runImage_of_boot hb]

/-- A run never returns exactly when it is RUNNING after arbitrarily many steps. -/
theorem neverReturns_iff : NeverReturns cfg image env ↔ ∀ m, ∃ k, m ≤ k ∧ (b.runIn env k).status = .running := by
  simp only [NeverReturns, runState_of_boot hb, Option.some.injEq, exists_eq_left']
  refine ⟨fun h m => ⟨m, le_refl m, h m⟩, fun h m => ?_⟩
  obtain ⟨k, hk, hr⟩ := h m
  exact b.runIn_running_of_le env m k hk hr

theorem neverReturns_of_running_from (h : ∀ k, n ≤ k → (b.runIn env k).status = .running) :
    NeverReturns cfg image env :=
  (neverReturns_iff hb env).2 fun m => ⟨max n m, le_max_right n m, h _ (le_max_left n m)⟩

theorem neverReturns_of_periodic (p : Nat) (hp : 0 < p) (hr : (b.runIn env n).status = .running)
    (h : b.runIn env (n + p) = b.runIn env n) (henv : ∀ k, n ≤ k → env (k + p) = env k) :
    NeverReturns cfg image env := by
  refine (neverReturns_iff hb env).2 fun m => ⟨n + m * p, ?_, by rwa [b.runIn_periodic env n p h henv m]⟩
  exact (Nat.le_mul_of_pos_right m hp).trans (Nat.le_add_left _ _)

/-- A run returns one exit status only: the later of two is the earlier one, which stays. -/
theorem returns_unique (e e' : Nat) (h : Returns cfg image env e) (h' : Returns cfg image env e') : e' = e := by
  obtain ⟨n, hn⟩ := (returns_iff hb env e).1 h
  obtain ⟨m, hm⟩ := (returns_iff hb env e').1 h'
  have hlate := b.runIn_exitStatus_of_le env n _ e (le_max_left n m) hn
  rw [b.runIn_exitStatus_of_le env m _ e' (le_max_right n m) hm] at hlate
  exact Option.some.inj hlate

theorem returns_or_neverReturns : (∃ e, Returns cfg image env e) ∨ NeverReturns cfg image env := by
  by_cases h : ∀ n, (b.runIn env n).status = .running
  · exact .inr (neverReturns_of_running_from hb env 0 fun k _ => h k)
  · obtain ⟨n, hn⟩ := not_forall.1 h
    rw [← State.exitStatus_eq_none_iff] at hn
    obtain ⟨e, he⟩ := Option.ne_none_iff_exists'.1 hn
    exact .inl ⟨e, (returns_iff hb env e).2 ⟨n, he⟩⟩

theorem not_neverReturns_of_returns (e : Nat) (h : Returns cfg image env e) : ¬ NeverReturns cfg image env := by
  intro hnever
  obtain ⟨n, hn⟩ := (returns_iff hb env e).1 h
  obtain ⟨k, hk, hr⟩ := (neverReturns_iff hb env).1 hnever n
  have he := b.runIn_exitStatus_of_le env n k e hk hn
  rw [(State.exitStatus_eq_none_iff _).2 hr] at he
  cases he

end

/-- Settles O60. A run that is accepted is `runIn` of the booted state (`runState_of_boot`): its exit status comes with the
end of RUNNING and stays (`State.runIn_exitStatus_of_le`), so the run returns once or never; the three that never return
stay in their wait (`State.runIn_of_silent`, `State.runIn_of_never_outReady`) or come back (`State.runIn_periodic`). -/
theorem runFollowsTheHostContract : Obligations.RunFollowsTheHostContract := by
  refine fun cfg image env hc => ⟨fun hlong n => ?refused, fun hfits => ?accepted, fun n s hs hr => ?endless⟩
  case refused => rw [runState, State.boot_of_too_long cfg image hlong, Option.map_none]
  case accepted =>
    have hb := State.boot_of_fits cfg image hfits
    refine ⟨(runState_of_boot hb env 0).trans hb.symm, fun n => ?states, fun n m e h hm => ?stays, ?_,
      not_neverReturns_of_returns hb env⟩
    case states =>
      refine ⟨_, _, runState_of_boot hb env n, runState_of_boot hb env (n + 1), step_eq_stepped _, ?_⟩
      rw [runImage_of_boot hb]
      refine ⟨State.exitStatus_eq_none_iff _, State.exitStatus_of_halted _, fun hf => ⟨?_, exitFault_ne_zero_of_wf cfg hc⟩⟩
      rw [State.exitStatus_of_faulted _ hf, State.runIn_cfg, cfg_of_boot hb]
    case stays =>
      rw [runImage_of_boot hb] at h ⊢
      exact State.runIn_exitStatus_of_le _ env n m e hm h
    exact (returns_or_neverReturns hb env).imp_left fun ⟨e, he⟩ => ⟨e, he, fun e' => returns_unique hb env e e' he⟩
  case endless =>
    obtain ⟨b, hb, rfl⟩ := (runState_eq_some_iff env cfg image n s).1 hs
    simp only [runState_of_boot hb, Option.some.injEq, exists_eq_left']
    refine ⟨fun c hw hready henv => ?input, fun byte hw hready henv => ?output, fun p hp hback henv => ?loop⟩
    case input =>
      have hstay := b.runIn_of_silent env n c hr hw hready henv
      refine ⟨neverReturns_of_running_from hb env n fun k hk => ?_, fun k hk => ?_⟩
      · obtain ⟨_, hk⟩ := hstay k hk; rwa [hk]
      · obtain ⟨_, hk⟩ := hstay k hk; rw [hk]; rfl
    case output =>
      have hstay := b.runIn_of_never_outReady env n byte hr hw hready henv
      refine ⟨neverReturns_of_running_from hb env n fun k hk => ?_, fun k hk => ?_⟩
      · obtain ⟨_, hk⟩ := hstay k hk; rwa [hk]
      · obtain ⟨_, hk⟩ := hstay k hk; rw [hk]; rfl
    case loop => exact neverReturns_of_periodic hb env n p hp hr hback henv

end Sys2Proof.Machine
end
